-- ==== Sys2Proof/Word.lean ====
section
/-! DEFINITION. The two word types of the block: a byte and a 6-bit address (00_scope.md R5, R7). -/

namespace Sys2Proof

/-- A byte: an unsigned 8-bit value, bit 7 the most significant (R7). -/
abbrev Byte := BitVec 8

/-- An address: "unsigned integer, 6-bit domain, range 0–63" (R10). -/
abbrev Addr := BitVec 6

end Sys2Proof
end

