-- ==== Sys2Proof/Config.lean ====
section
/-! DEFINITION. The constants the source fixes (00_scope.md R5) and the values the spec leaves free. -/

namespace Sys2Proof.Config

/-- `ADDR_MAX`, the largest legal address (R5). -/
abbrev addrMax : Nat := 63

/-- `ADDR_MASK`, which keeps the low six bits (R5). -/
abbrev addrMask : Byte := 0x3F#8

/-- `START_MARK`, the frame-start marker, bit 7 (R5). -/
abbrev startMark : Byte := 0x80#8

/-- `MARK_MASK`, the bits outside the address field (R5). -/
abbrev markMask : Byte := 0xC0#8

/-- `MAX_PAYLOAD`, the longest payload and the capacity of each payload store (R5). -/
abbrev maxPayload : Nat := 255

/-- `OVERHEAD`, the frame bytes that are not payload (R5). -/
abbrev overhead : Nat := 4

/-- FREE VALUE (DESIGN CHOICE, log 5; safe). The destination address of the Packet that SER.RESET leaves in `ser.pkt`:
"unspecified (never read in stage DONE)" (R76, U8). The argument counts the draws. -/
opaque freeDest : Nat → Addr

/-- FREE VALUE (log 5; safe). The source address of that Packet. -/
opaque freeSrc : Nat → Addr

/-- FREE VALUE (log 5; safe). The payload length of that Packet. -/
opaque freeLen : Nat → Byte

/-- FREE VALUE (log 5; safe). The bytes of `SERPAY` after SER.RESET, by draw and by index. -/
opaque freeSerpay : Nat → Nat → Byte

end Sys2Proof.Config
end

