-- ==== Sys2Proof/Syntax.lean ====
section
/-! DEFINITION. The operand types (payload, Packet) and the one inductive of operations and rows: a constructor for
every mnemonic of spec/opcode_table.json (30_encoding.md R58, R64). -/

namespace Sys2Proof

/-- A payload: an "ordered byte sequence, length 0–255 inclusive" (R10). The bound is part of the type, so that an
over-long payload cannot be written (R65: "make it unrepresentable in the operand's type"; log 8). -/
structure Payload where
  bytes : List Byte
  bound : bytes.length ≤ Config.maxPayload
  deriving DecidableEq, Repr

/-- The Packet value (R10). Both addresses are 6-bit by type, so no operation meets an invalid Packet. -/
structure Packet where
  dest : Addr
  src : Addr
  payload : Payload
  deriving DecidableEq, Repr

/-- `P.len`, the payload length (R10). -/
abbrev Packet.len (P : Packet) : Nat := P.payload.bytes.length

/-- Operations and rows. The first ten are the operations a host issues (R58); then the five rows of what SER.NEXT does in
one stage and the seven of what DES.STEP does with one class of input byte (R64; log 2). -/
inductive Instr where
  /-- PKT.CONSTRUCT dest, src, payload (R65); address operands of 8 bits (D7, log 7). -/
  | pktConstruct (dest src : Byte) (payload : Payload)
  /-- PKT.DEST P (R66). -/
  | pktDest (P : Packet)
  /-- PKT.SRC P (R66). -/
  | pktSrc (P : Packet)
  /-- PKT.PAYLOAD P (R66). -/
  | pktPayload (P : Packet)
  /-- SER.RESET (R76). -/
  | serReset
  /-- SER.LOAD P (R77). -/
  | serLoad (P : Packet)
  /-- SER.NEXT (R87). -/
  | serNext
  /-- DES.RESET (R101). -/
  | desReset
  /-- DES.STEP b (R102). -/
  | desStep (b : Byte)
  /-- DES.READ bytes, "a byte sequence of any length" (R109). -/
  | desRead (bytes : List Byte)
  /-- SER.NEXT.DEST, emits `10dddddd` (R78). -/
  | serNextDest
  /-- SER.NEXT.SENDER, emits `00ssssss` (R79). -/
  | serNextSender
  /-- SER.NEXT.LENGTH, emits `nnnnnnnn` (R80). -/
  | serNextLength
  /-- SER.NEXT.DATA, emits `pppppppp` (R81). -/
  | serNextData
  /-- SER.NEXT.CRC, emits `cccccccc` (R82). -/
  | serNextCrc
  /-- DES.SEEK.ACCEPT, input byte `10dddddd` (R103). -/
  | desSeekAccept (b : Byte)
  /-- DES.SEEK.DISCARD, input byte `0xxxxxxx` or `11xxxxxx` (R103). -/
  | desSeekDiscard (b : Byte)
  /-- DES.SENDER, input byte `rrssssss` (R104). -/
  | desSender (b : Byte)
  /-- DES.LENGTH.ZERO, input byte `00000000` (R105). -/
  | desLengthZero
  /-- DES.LENGTH.NONZERO, input byte `nnnnnnnn`, not all zero (R105). -/
  | desLengthNonzero (b : Byte)
  /-- DES.DATA, input byte `pppppppp` (R106). -/
  | desData (b : Byte)
  /-- DES.CHECKSUM, input byte `cccccccc` (R107). -/
  | desChecksum (b : Byte)
  deriving DecidableEq, Repr

end Sys2Proof
end

