-- ==== Sys2Proof/WellFormed.lean ====
section
/-! DEFINITION. Which terms of Instr stand for something the spec writes: an input-byte row is a term of its row only if the
byte has the row's pattern, `(b & mask) == match` (30_encoding.md R54, R64). Everything else a term could get wrong is
excluded by its operands' types (R10, R65). -/

namespace Sys2Proof

/-- The operand lies in the pattern of the constructor's row of the opcode table. -/
def Instr.wf : Instr → Bool
  | .pktConstruct _ _ _ => true
  | .pktDest _ => true
  | .pktSrc _ => true
  | .pktPayload _ => true
  | .serReset => true
  | .serLoad _ => true
  | .serNext => true
  | .desReset => true
  | .desStep _ => true
  | .desRead _ => true
  | .serNextDest => true
  | .serNextSender => true
  | .serNextLength => true
  | .serNextData => true
  | .serNextCrc => true
  | .desSeekAccept b => b &&& 0xC0#8 == 0x80#8
  | .desSeekDiscard b => b &&& 0x80#8 == 0x00#8 || b &&& 0xC0#8 == 0xC0#8
  | .desSender _ => true
  | .desLengthZero => true
  | .desLengthNonzero b => b != 0x00#8
  | .desData _ => true
  | .desChecksum _ => true

end Sys2Proof
end

