-- ==== Sys2Proof/Decode.lean ====
section
/-! DEFINITION. The byte form of a request, its decoder (total on any bytes, rejecting by name) and its encoder.

"Operations have no binary encoding in any source" (30_encoding.md R58); the spec gives only informative 4-bit numbers (R63)
and the byte patterns of the rows (R54, R64). The byte form is therefore the model's own (DESIGN CHOICE, log 1, log 14; no
rule of the spec depends on it):

* first byte `0000oooo`: the operation number of R63, then the operands in the order of R58;
* first byte `10dddddd` or `11xxxxxx`: the input-byte row DES.SEEK.ACCEPT or DES.SEEK.DISCARD with that byte;
* first byte 0x10..0x14, 0x21..0x26: the other rows, the row's byte following where it has one;
* a Packet operand: destination byte, source byte, length byte, payload bytes; a payload operand: length byte, bytes;
* the operand of DES.READ, which has any length: 0x01 before each byte, 0x00 at the end. -/

namespace Sys2Proof

/-- Why bytes are no request. -/
inductive DecodeError where
  /-- The bytes end inside a request. -/
  | truncated
  /-- An operation number 10..15, "unassigned" (R63). -/
  | unassignedOperation
  /-- A first byte with no meaning in the model's byte form (log 1). -/
  | unassignedSelector
  /-- A Packet operand with an address above 63: such a Packet "cannot exist" (R77). -/
  | addressTooWide
  /-- A flag byte of a DES.READ operand that is neither 0x00 nor 0x01 (log 1). -/
  | badSequenceFlag
  /-- A row's byte that is not of the row's pattern (R54). -/
  | outsideRowPattern
  deriving DecidableEq, Repr

/-- What reading one part of a request gives: the part and the bytes after it, or the reason there is none. -/
abbrev Parsed (α : Type) := Except DecodeError (α × List Byte)

/-- Continues with what was read, if anything was. -/
def parsedMap {α β : Type} (f : α → β) : Parsed α → Parsed β
  | .ok (a, rest) => .ok (f a, rest)
  | .error e => .error e

/-- One byte operand. -/
def decodeByte : List Byte → Parsed Byte
  | [] => .error .truncated
  | b :: rest => .ok (b, rest)

/-- A payload operand: a length byte and that many bytes. -/
def decodePayload : List Byte → Parsed Payload
  | [] => .error .truncated
  | n :: rest =>
    if n.toNat ≤ rest.length then
      .ok (⟨rest.take n.toNat, by
        have := n.isLt
        simp only [List.length_take, Config.maxPayload]
        omega⟩, rest.drop n.toNat)
    else .error .truncated

/-- A Packet operand: two address bytes of at most 63 and a payload. -/
def decodePacket : List Byte → Parsed Packet
  | d :: s :: rest =>
    if d.toNat ≤ Config.addrMax ∧ s.toNat ≤ Config.addrMax then
      parsedMap (fun p => ⟨d.setWidth 6, s.setWidth 6, p⟩) (decodePayload rest)
    else .error .addressTooWide
  | _ => .error .truncated

/-- The operands of PKT.CONSTRUCT: two address bytes of any value and a payload. -/
def decodeConstruct : List Byte → Parsed Instr
  | d :: s :: rest => parsedMap (fun p => .pktConstruct d s p) (decodePayload rest)
  | _ => .error .truncated

/-- A byte sequence of any length. -/
def decodeSequence : List Byte → Parsed (List Byte)
  | [] => .error .truncated
  | [f] => if f = 0x00#8 then .ok ([], []) else if f = 0x01#8 then .error .truncated else .error .badSequenceFlag
  | f :: b :: rest =>
    if f = 0x00#8 then .ok ([], b :: rest)
    else if f = 0x01#8 then parsedMap (fun bs => b :: bs) (decodeSequence rest)
    else .error .badSequenceFlag

/-- Takes a row's term only if its byte has the row's pattern. -/
def keepWellFormed : Parsed Instr → Parsed Instr
  | .ok (i, rest) => if i.wf then .ok (i, rest) else .error .outsideRowPattern
  | .error e => .error e

/-- The operation numbers of R63 (0..9; 10..15 unassigned) and the model's first bytes for the rows that need one. -/
def decodeSelector (n : Nat) (rest : List Byte) : Parsed Instr :=
  match n with
  | 0x00 => decodeConstruct rest
  | 0x01 => parsedMap .pktDest (decodePacket rest)
  | 0x02 => parsedMap .pktSrc (decodePacket rest)
  | 0x03 => parsedMap .pktPayload (decodePacket rest)
  | 0x04 => .ok (.serReset, rest)
  | 0x05 => parsedMap .serLoad (decodePacket rest)
  | 0x06 => .ok (.serNext, rest)
  | 0x07 => .ok (.desReset, rest)
  | 0x08 => parsedMap .desStep (decodeByte rest)
  | 0x09 => parsedMap .desRead (decodeSequence rest)
  | 0x10 => .ok (.serNextDest, rest)
  | 0x11 => .ok (.serNextSender, rest)
  | 0x12 => .ok (.serNextLength, rest)
  | 0x13 => .ok (.serNextData, rest)
  | 0x14 => .ok (.serNextCrc, rest)
  | 0x21 =>
    match rest with
    | [] => .error .truncated
    | b :: rest' => if b.toNat < 0x80 then .ok (.desSeekDiscard b, rest') else .error .outsideRowPattern
  | 0x22 => parsedMap .desSender (decodeByte rest)
  | 0x23 => .ok (.desLengthZero, rest)
  | 0x24 => keepWellFormed (parsedMap .desLengthNonzero (decodeByte rest))
  | 0x25 => parsedMap .desData (decodeByte rest)
  | 0x26 => parsedMap .desChecksum (decodeByte rest)
  | _ => .error (if n < 16 then .unassignedOperation else .unassignedSelector)

/-- Reads one request from the front of a byte sequence. -/
def decode : List Byte → Parsed Instr
  | [] => .error .truncated
  | op :: rest =>
    if op.toNat < 0x80 then decodeSelector op.toNat rest
    else if op.toNat < 0xC0 then .ok (.desSeekAccept op, rest)
    else .ok (.desSeekDiscard op, rest)

/-- The bytes of a payload operand. -/
def encodePayload (p : Payload) : List Byte := BitVec.ofNat 8 p.bytes.length :: p.bytes

/-- The bytes of a Packet operand. -/
def encodePacket (P : Packet) : List Byte := P.dest.setWidth 8 :: P.src.setWidth 8 :: encodePayload P.payload

/-- The bytes of a DES.READ operand. -/
def encodeSequence : List Byte → List Byte
  | [] => [0x00#8]
  | b :: bs => 0x01#8 :: b :: encodeSequence bs

/-- The bytes of a request. -/
def encode : Instr → List Byte
  | .pktConstruct dest src payload => 0x00#8 :: dest :: src :: encodePayload payload
  | .pktDest P => 0x01#8 :: encodePacket P
  | .pktSrc P => 0x02#8 :: encodePacket P
  | .pktPayload P => 0x03#8 :: encodePacket P
  | .serReset => [0x04#8]
  | .serLoad P => 0x05#8 :: encodePacket P
  | .serNext => [0x06#8]
  | .desReset => [0x07#8]
  | .desStep b => [0x08#8, b]
  | .desRead bytes => 0x09#8 :: encodeSequence bytes
  | .serNextDest => [0x10#8]
  | .serNextSender => [0x11#8]
  | .serNextLength => [0x12#8]
  | .serNextData => [0x13#8]
  | .serNextCrc => [0x14#8]
  | .desSeekAccept b => [b]
  | .desSeekDiscard b => if b.toNat < 0x80 then [0x21#8, b] else [b]
  | .desSender b => [0x22#8, b]
  | .desLengthZero => [0x23#8]
  | .desLengthNonzero b => [0x24#8, b]
  | .desData b => [0x25#8, b]
  | .desChecksum b => [0x26#8, b]

/-- An opcode-table word laid out as bytes, the first byte bits 7..0; then `pad` zero bytes, which covers every operand of
zeros (the longest is a Packet of two zero addresses and no payload). -/
def tableBytes (nbits w pad : Nat) : List Byte :=
  (List.range ((nbits + 7) / 8)).map (fun k => BitVec.ofNat 8 (w / 256 ^ k)) ++ List.replicate pad 0x00#8

/-- What the decoder reads from an opcode-table word. The table numbers three different spaces (operations, bytes emitted,
bytes received) from zero, so one word can stand for rows of more than one (log 14). -/
def decodeTableWord (nbits w : Nat) : Option Instr :=
  match decode (tableBytes nbits w 8) with
  | .ok (i, _) => some i
  | .error _ => none

/-- The bytes of exactly the request that starts an opcode-table word: the zero bytes it does not read are dropped. -/
def requestOfTableWord (nbits w : Nat) : List Byte :=
  match decode (tableBytes nbits w 8) with
  | .ok (_, rest) => (tableBytes nbits w 8).take ((tableBytes nbits w 8).length - rest.length)
  | .error _ => tableBytes nbits w 0

end Sys2Proof
end

