-- ==== Sys2Proof/Machine/State.lean ====
section
/-! DEFINITION. The state of the block (10_state.md), the results of its operations (R114), the reasons a step can stop, and
the state after reset (R26). -/

namespace Sys2Proof.Machine

/-- `ser.stage` (R11): which field SER.NEXT emits next. -/
inductive SerStage where
  | dest | sender | length | data | crc | done
  deriving DecidableEq, Repr

/-- `des.stage` (R12): what the next input byte means. -/
inductive DesStage where
  | seek | sender | length | data | checksum
  deriving DecidableEq, Repr

/-- The Serializer's registers (R11). `pkt` is the Packet held: `ser.pkt.dest`, `ser.pkt.src`, `ser.pkt.len` and `SERPAY`,
the payload being kept inside it as R21 allows. -/
structure Ser where
  stage : SerStage
  cks : Byte
  cursor : Byte
  pkt : Packet
  deriving DecidableEq, Repr

/-- The Deserializer's registers (R12). `buf` is `DESBUF[0 .. des.cursor-1]`, all of the buffer that is state (R22). -/
structure Des where
  stage : DesStage
  dest : Addr
  src : Addr
  len : Byte
  cursor : Byte
  cks : Byte
  buf : List Byte
  deriving DecidableEq, Repr

/-- The three error outcomes (R130). -/
inductive Err where
  | destinationAddressOutOfRange
  | senderAddressOutOfRange
  | badCRC
  deriving DecidableEq, Repr

/-- The result of PKT.CONSTRUCT (R65): a Packet or a validation error. -/
inductive ConstructResult where
  | packet (P : Packet)
  | error (e : Err)
  deriving DecidableEq, Repr

/-- The result of DES.STEP (R114). -/
inductive StepResult where
  | cont
  | packet (P : Packet)
  | error (e : Err)
  deriving DecidableEq, Repr

/-- The outcome of DES.READ (R114). -/
inductive ReadOutcome where
  | noPacketYet
  | packet (P : Packet)
  | error (e : Err)
  deriving DecidableEq, Repr

/-- What an operation returns to the host (R9, R58). -/
inductive Result where
  /-- No value: SER.RESET, SER.LOAD, DES.RESET. -/
  | unit
  /-- PKT.CONSTRUCT. -/
  | construct (r : ConstructResult)
  /-- PKT.DEST, PKT.SRC. -/
  | addr (a : Addr)
  /-- PKT.PAYLOAD. -/
  | payload (p : Payload)
  /-- SER.NEXT: `Some b` or `None`. -/
  | byte (b : Option Byte)
  /-- DES.STEP. -/
  | step (r : StepResult)
  /-- DES.READ: `(bytes_consumed, outcome)`; the count is a natural number (R114, D11, log 12). -/
  | read (consumed : Nat) (outcome : ReadOutcome)
  deriving DecidableEq, Repr

/-- The machine: one Serializer, one Deserializer (R6; log 10) and the host's side of them. -/
structure State where
  /-- The Serializer (R11). -/
  ser : Ser
  /-- The Deserializer (R12). -/
  des : Des
  /-- The operations issued and not yet run, oldest first, in the byte form of Decode.lean (R37; log 3). -/
  requests : List Byte
  /-- The results returned, oldest first: all that a host observes (R24; log 4). -/
  results : List Result
  /-- The output byte stream: the bytes SER.NEXT has returned (R23; log 4). -/
  outStream : List Byte
  /-- The input byte stream: the bytes the Deserializer has consumed (R23; log 4). -/
  inStream : List Byte
  /-- The model's own: how many free Packets have been drawn (log 5). -/
  draws : Nat
  deriving DecidableEq, Repr

/-- Why the machine stops in a state that no sequence of operations from reset leads to. -/
inductive Fault where
  /-- Raised by SER.NEXT in stage DATA, and by DES.STEP and DES.READ in stages DATA and CHECKSUM, on an access to a
  payload store at an index that holds no byte of it (R21, R22, R36). The invariants R13 and R14 exclude it. Safe (log 11). -/
  | storeIndexOutOfRange
  deriving DecidableEq, Repr

/-- Why the model gives a request no meaning. -/
inductive Refusal where
  /-- Raised by exec's arm of an instruction that has no meaning yet. Safe. -/
  | notModelled (mnemonic : String)
  /-- Raised by SER.LOAD in a stage other than DONE, "REFUSED" (R77). Safe. -/
  | loadWhileBusy
  /-- Raised by a row of the opcode table in a stage, or with an input byte, that is not the row's: "the row applies when
  (b & mask) == match" in its stage (R64). Safe (log 2). -/
  | rowDoesNotApply
  /-- Raised by the step on request bytes that are no request (R63: numbers 10..15 unassigned). Safe (log 1). -/
  | undecodable (e : DecodeError)
  deriving DecidableEq, Repr

/-- The Packet a reset Serializer holds in the model. The spec leaves it unspecified (R26): DESIGN CHOICE, unsafe (log 6). -/
def Ser.resetPacket : Packet := ⟨0#6, 0#6, ⟨[], by decide⟩⟩

/-- The Serializer after reset (R26, R76). -/
def Ser.reset : Ser := { stage := .done, cks := 0#8, cursor := 0#8, pkt := Ser.resetPacket }

/-- The Deserializer after reset (R26, R101). -/
def Des.reset : Des :=
  { stage := .seek, dest := 0#6, src := 0#6, len := 0#8, cursor := 0#8, cks := 0#8, buf := [] }

/-- The machine right after both instances are reset (R26, R151; log 13), with nothing requested and nothing observed. -/
def State.reset : State :=
  { ser := Ser.reset, des := Des.reset, requests := [], results := [], outStream := [], inStream := [], draws := 0 }

end Sys2Proof.Machine
end

