-- ==== Sys2Proof/Machine/Frame.lean ====
section
/-! DEFINITION. The wire frame of a Packet and its fields, assembled and extracted (30_encoding.md R45 to R53). -/

namespace Sys2Proof.Machine

/-- `b & 0x3F` as a 6-bit value, `b[5:0]` (R53). -/
def low6 (b : Byte) : Addr := (b &&& Config.addrMask).setWidth 6

/-- The destination byte `0x80 | (dest & 0x3F)` (R48). -/
def destByte (a : Addr) : Byte := Config.startMark ||| (a.setWidth 8 &&& Config.addrMask)

/-- The sender byte `src & 0x3F` (R49). -/
def senderByte (a : Addr) : Byte := a.setWidth 8 &&& Config.addrMask

/-- The length byte: "payload length as an 8-bit value" (R50). -/
def lengthByte (p : Payload) : Byte := BitVec.ofNat 8 p.bytes.length

/-- `xor_all` (R46). -/
def xorAll (bs : List Byte) : Byte := bs.foldl (· ^^^ ·) 0#8

/-- The frame bytes before the checksum, `H ++ P.payload` (R46). -/
def frameBody (P : Packet) : List Byte := destByte P.dest :: senderByte P.src :: lengthByte P.payload :: P.payload.bytes

/-- `frame(P)` (R46). -/
def frame (P : Packet) : List Byte := frameBody P ++ [xorAll (frameBody P)]

end Sys2Proof.Machine
end

