-- ==== Sys2Proof/Machine/Flags.lean ====
section
/-! DEFINITION. The conditions the operations test. The block has no flags and no condition codes (10_state.md R19): every
condition is computed where it is used, from unsigned values (R86, R113), and none is stored. -/

namespace Sys2Proof.Machine

/-- The range test of PKT.CONSTRUCT, `> 63` (R65). -/
def addrOutOfRange (a : Byte) : Bool := decide (Config.addrMax < a.toNat)

/-- The start-marker test `(b & 0xC0) == 0x80` (R54, R103). -/
def isStart (b : Byte) : Bool := b &&& Config.markMask == Config.startMark

/-- `cursor + 1 == len` on 8-bit values: the byte at the cursor is the last of the payload (R81, R106). -/
def isLastAt (cursor len : Byte) : Bool := cursor + 1#8 == len

/-- The classes of input byte of R54: the rows of the opcode table that DES.STEP dispatches to. -/
inductive ByteClass where
  | seekAccept | seekDiscard | sender | lengthZero | lengthNonzero | data | checksum
  deriving DecidableEq, Repr

/-- The class of an input byte: a function of the stage and, in two stages, of the byte (R54). -/
def classify (stage : DesStage) (b : Byte) : ByteClass :=
  match stage with
  | .seek => if isStart b then .seekAccept else .seekDiscard
  | .sender => .sender
  | .length => if b == 0#8 then .lengthZero else .lengthNonzero
  | .data => .data
  | .checksum => .checksum

end Sys2Proof.Machine
end

