-- ==== Sys2Proof/Machine/Operands.lean ====
section
/-! DEFINITION. The payload stores and the one addressing mode, a cursor used as an index (10_state.md R21, R22;
20_memory.md R33, R36). A store is the sequence of its architectural bytes; an access anywhere else answers none, and the
operation that makes it faults (log 11). -/

namespace Sys2Proof.Machine

/-- `MemRead(space, i, 1)` (R8, R33). -/
def storeRead (store : List Byte) (i : Nat) : Option Byte := store[i]?

/-- The bytes with index below `n`, read as one copy (R33). -/
def storeCopy (store : List Byte) (n : Nat) : Option (List Byte) :=
  if n ≤ store.length then some (store.take n) else none

/-- `MemWrite(space, i, 1, v)` for a store whose content ends at the index written (R22): the content is then the bytes
below `i` and `v`. Index 255 does not exist (R36). -/
def storeWrite (store : List Byte) (i : Nat) (v : Byte) : Option (List Byte) :=
  if i ≤ store.length ∧ i < Config.maxPayload then some (store.take i ++ [v]) else none

/-- `MemRead(SERPAY, ser.cursor, 1)` (R81). -/
def serpayAtCursor (r : Ser) : Option Byte := storeRead r.pkt.payload.bytes r.cursor.toNat

/-- `MemWrite(DESBUF, des.cursor, 1, b)` (R106). -/
def desbufPut (d : Des) (b : Byte) : Option (List Byte) := storeWrite d.buf d.cursor.toNat b

/-- `DESBUF[0 .. des.cursor-1]` as a payload operand (R107); the cursor is 8 bits, so the payload is never too long. -/
def desbufPayload (d : Des) : Option Payload :=
  match h : storeCopy d.buf d.cursor.toNat with
  | some bs => some ⟨bs, by
      have := d.cursor.isLt
      unfold storeCopy at h
      split at h
      · cases h
        simp only [List.length_take, Config.maxPayload]
        omega
      · cases h⟩
  | none => none

/-- The Packet of the `n`-th draw: what `ser.pkt` and `SERPAY` hold after SER.RESET, "unspecified" (R76; log 5). -/
def freePacket (n : Nat) : Packet :=
  ⟨Config.freeDest n, Config.freeSrc n, ⟨(List.range (Config.freeLen n).toNat).map (Config.freeSerpay n), by
    have := (Config.freeLen n).isLt
    simp only [List.length_map, List.length_range, Config.maxPayload]
    omega⟩⟩

/-- The store discipline of R22: the buffer is "a byte sequence whose length is `des.cursor`". -/
def Memory.wf (d : Des) : Bool := d.buf.length == d.cursor.toNat

end Sys2Proof.Machine
end

