-- ==== Sys2Proof/Machine/Ops.lean ====
section
/-! DEFINITION. The named operations over the state that the meanings share. -/

namespace Sys2Proof.Machine

/-- Replaces the Serializer's registers. -/
def State.setSer (r : Ser) (s : State) : State := { s with ser := r }

/-- Replaces the Deserializer's registers. -/
def State.setDes (d : Des) (s : State) : State := { s with des := d }

/-- Appends to the output stream (R23). -/
def State.emit (bs : List Byte) (s : State) : State := { s with outStream := s.outStream ++ bs }

/-- Appends to the input stream the bytes consumed (R23). -/
def State.consume (bs : List Byte) (s : State) : State := { s with inStream := s.inStream ++ bs }

/-- Replaces the pending requests. -/
def State.setRequests (bs : List Byte) (s : State) : State := { s with requests := bs }

/-- Counts one draw of a free Packet (log 5). -/
def State.draw (s : State) : State := { s with draws := s.draws + 1 }

/-- Returns a result to the host. -/
def State.respond (r : Result) (s : State) : State := { s with results := s.results ++ [r] }

/-- How every operation ends. "An operation returns a value; it never traps to a handler" (R9): a value and an error outcome
leave the same way, as the operation's result, and nothing is saved, no mode and no stage changes because of it (R139).
Taking an error is this operation, and so is going on after one, since there is no return operation (R141). -/
def State.conclude (r : Result) (s : State) : Host.Outcome State Fault Refusal := .next (s.respond r)

/-- Ends a step of the Serializer: the new registers, the byte emitted if any, the result (R87). -/
def State.concludeSer (o : Option (Ser × Option Byte)) (s : State) : Host.Outcome State Fault Refusal :=
  match o with
  | some (r, b) => ((s.setSer r).emit b.toList).conclude (.byte b)
  | none => .fault .storeIndexOutOfRange

/-- Ends a step of the Deserializer on one byte: the new registers, the byte consumed, the result (R102). -/
def State.concludeDes (b : Byte) (o : Option (Des × StepResult)) (s : State) : Host.Outcome State Fault Refusal :=
  match o with
  | some (d, r) => ((s.setDes d).consume [b]).conclude (.step r)
  | none => .fault .storeIndexOutOfRange

/-- What the step finds at the front of the pending requests. -/
def State.fetch (s : State) : Option (Parsed Instr) := if s.requests.isEmpty then none else some (decode s.requests)

end Sys2Proof.Machine
end

