-- ==== Sys2Proof/Machine/Packet.lean ====
section
/-! DEFINITION. The Packet operations (40_packet.md): PKT.CONSTRUCT, PKT.DEST, PKT.SRC, PKT.PAYLOAD. All are pure: they
write no register of the block (R65, R66). -/

namespace Sys2Proof.Machine

/-- PKT.CONSTRUCT as a function (R65): the destination check comes first (R136). -/
def construct (dest src : Byte) (payload : Payload) : ConstructResult :=
  if addrOutOfRange dest then .error .destinationAddressOutOfRange
  else if addrOutOfRange src then .error .senderAddressOutOfRange
  else .packet ⟨dest.setWidth 6, src.setWidth 6, payload⟩

/-- PKT.CONSTRUCT dest, src, payload (R65, R68). -/
def execPktConstruct (dest src : Byte) (payload : Payload) (s : State) : Host.Outcome State Fault Refusal :=
  s.conclude (.construct (construct dest src payload))

/-- PKT.DEST P (R66). -/
def execPktDest (P : Packet) (s : State) : Host.Outcome State Fault Refusal := s.conclude (.addr P.dest)

/-- PKT.SRC P (R66). -/
def execPktSrc (P : Packet) (s : State) : Host.Outcome State Fault Refusal := s.conclude (.addr P.src)

/-- PKT.PAYLOAD P (R66). -/
def execPktPayload (P : Packet) (s : State) : Host.Outcome State Fault Refusal := s.conclude (.payload P.payload)

end Sys2Proof.Machine
end

