-- ==== Sys2Proof/Machine/Deserializer.lean ====
section
/-! DEFINITION. The Deserializer operations (42_deserializer.md): DES.RESET, DES.STEP and its seven rows, one register
function per row, and DES.READ, a run of DES.STEPs. -/

namespace Sys2Proof.Machine

/-- The register values of DES.RESET and of frame completion (R26, R101, R108). -/
def desCleared : Des :=
  { stage := .seek, dest := 0#6, src := 0#6, len := 0#8, cursor := 0#8, cks := 0#8, buf := [] }

/-- DES.RESET (R101). -/
def execDesReset (s : State) : Host.Outcome State Fault Refusal := (s.setDes desCleared).conclude .unit

/-- DES.SEEK.ACCEPT (R103): the whole byte seeds the checksum. -/
def desSeekAccept (b : Byte) (d : Des) : Des := { d with dest := low6 b, cks := b, stage := .sender }

/-- DES.SENDER (R104): bits 7 and 6 are dropped from the address and kept in the checksum (R56). -/
def desSender (b : Byte) (d : Des) : Des := { d with src := low6 b, cks := d.cks ^^^ b, stage := .length }

/-- DES.LENGTH.ZERO (R105): "skip data entirely". -/
def desLengthZero (d : Des) : Des := { d with len := 0#8, cks := d.cks ^^^ 0#8, stage := .checksum }

/-- DES.LENGTH.NONZERO (R105). -/
def desLengthNonzero (b : Byte) (d : Des) : Des := { d with len := b, cks := d.cks ^^^ b, stage := .data }

/-- DES.DATA (R106): the incremented cursor is the one compared. -/
def desData (b : Byte) (d : Des) : Option Des :=
  match desbufPut d b with
  | some buf =>
    some { d with
      buf := buf
      cursor := d.cursor + 1#8
      cks := d.cks ^^^ b
      stage := if isLastAt d.cursor d.len then .checksum else .data }
  | none => none

/-- The result of PKT.CONSTRUCT as a result of DES.STEP, propagated unchanged (R67, R107). -/
def stepOfConstruct : ConstructResult → StepResult
  | .packet P => .packet P
  | .error e => .error e

/-- The verdict of DES.CHECKSUM (R107): the comparison comes first, and PKT.CONSTRUCT only on equality (R137). -/
def desVerdict (b : Byte) (d : Des) : Option StepResult :=
  if b == d.cks then
    match desbufPayload d with
    | some p => some (stepOfConstruct (construct (d.dest.setWidth 8) (d.src.setWidth 8) p))
    | none => none
  else some (.error .badCRC)

/-- DES.CHECKSUM: the verdict and, in the same step, frame completion (R107, R108). -/
def desChecksum (b : Byte) (d : Des) : Option (Des × StepResult) :=
  match desVerdict b d with
  | some r => some (desCleared, r)
  | none => none

/-- Pairs new registers with the result `Continue`. -/
def continuing (d : Des) : Des × StepResult := (d, .cont)

/-- What a row does to the registers and what it returns (R103 to R107). -/
def desRow (c : ByteClass) (b : Byte) (d : Des) : Option (Des × StepResult) :=
  match c with
  | .seekAccept => some (continuing (desSeekAccept b d))
  | .seekDiscard => some (continuing d)
  | .sender => some (continuing (desSender b d))
  | .lengthZero => some (continuing (desLengthZero d))
  | .lengthNonzero => some (continuing (desLengthNonzero b d))
  | .data => (desData b d).map continuing
  | .checksum => desChecksum b d

/-- DES.STEP on the registers: the row of the byte's class (R54, R102). -/
def desStep (b : Byte) (d : Des) : Option (Des × StepResult) := desRow (classify d.stage b) b d

/-- The outcome of DES.READ that a step's result ends it with; none where the run goes on (R109). -/
def outcomeOfStep : StepResult → Option ReadOutcome
  | .cont => none
  | .packet P => some (.packet P)
  | .error e => some (.error e)

/-- DES.READ on the registers (R109): the registers after, the bytes consumed, the outcome. -/
def desRead : List Byte → Des → Option (Des × Nat × ReadOutcome)
  | [], d => some (d, 0, .noPacketYet)
  | b :: bs, d =>
    match desStep b d with
    | none => none
    | some (d', r) =>
      match outcomeOfStep r with
      | some o => some (d', 1, o)
      | none =>
        match desRead bs d' with
        | some (d'', n, o) => some (d'', n + 1, o)
        | none => none

/-- DES.STEP b (R102). -/
def execDesStep (b : Byte) (s : State) : Host.Outcome State Fault Refusal := s.concludeDes b (desStep b s.des)

/-- DES.READ bytes (R109): a run of DES.STEPs that no other agent can observe in between, so one step here (R34; log 9). -/
def execDesRead (bytes : List Byte) (s : State) : Host.Outcome State Fault Refusal :=
  match desRead bytes s.des with
  | some (d, n, o) => ((s.setDes d).consume (bytes.take n)).conclude (.read n o)
  | none => .fault .storeIndexOutOfRange

/-- DES.SEEK.ACCEPT (R103). -/
def execDesSeekAccept (b : Byte) (s : State) : Host.Outcome State Fault Refusal :=
  if classify s.des.stage b = .seekAccept then s.concludeDes b (desRow .seekAccept b s.des) else .refused .rowDoesNotApply

/-- DES.SEEK.DISCARD (R103). -/
def execDesSeekDiscard (b : Byte) (s : State) : Host.Outcome State Fault Refusal :=
  if classify s.des.stage b = .seekDiscard then s.concludeDes b (desRow .seekDiscard b s.des) else .refused .rowDoesNotApply

/-- DES.SENDER (R104). -/
def execDesSender (b : Byte) (s : State) : Host.Outcome State Fault Refusal :=
  if classify s.des.stage b = .sender then s.concludeDes b (desRow .sender b s.des) else .refused .rowDoesNotApply

/-- DES.LENGTH.ZERO (R105). -/
def execDesLengthZero (s : State) : Host.Outcome State Fault Refusal :=
  if classify s.des.stage 0#8 = .lengthZero then s.concludeDes 0#8 (desRow .lengthZero 0#8 s.des) else .refused .rowDoesNotApply

/-- DES.LENGTH.NONZERO (R105). -/
def execDesLengthNonzero (b : Byte) (s : State) : Host.Outcome State Fault Refusal :=
  if classify s.des.stage b = .lengthNonzero then s.concludeDes b (desRow .lengthNonzero b s.des) else .refused .rowDoesNotApply

/-- DES.DATA (R106). -/
def execDesData (b : Byte) (s : State) : Host.Outcome State Fault Refusal :=
  if classify s.des.stage b = .data then s.concludeDes b (desRow .data b s.des) else .refused .rowDoesNotApply

/-- DES.CHECKSUM (R107, R108). -/
def execDesChecksum (b : Byte) (s : State) : Host.Outcome State Fault Refusal :=
  if classify s.des.stage b = .checksum then s.concludeDes b (desRow .checksum b s.des) else .refused .rowDoesNotApply

end Sys2Proof.Machine
end

