-- ==== Sys2Proof/Machine/Serializer.lean ====
section
/-! DEFINITION. The Serializer operations (41_serializer.md): SER.RESET, SER.LOAD, SER.NEXT and its five rows, one register
function per stage. -/

namespace Sys2Proof.Machine

/-- SER.RESET (R76): the held Packet is a fresh free value (log 5). -/
def execSerReset (s : State) : Host.Outcome State Fault Refusal :=
  ((s.setSer { stage := .done, cks := 0#8, cursor := 0#8, pkt := freePacket s.draws }).draw).conclude .unit

/-- SER.LOAD P (R77); `REFUSED` in a stage other than DONE. -/
def execSerLoad (P : Packet) (s : State) : Host.Outcome State Fault Refusal :=
  if s.ser.stage = .done then
    (s.setSer { stage := .dest, cks := 0#8, cursor := 0#8, pkt := P }).conclude .unit
  else .refused .loadWhileBusy

/-- Stage DEST (R78): the byte seeds the checksum. -/
def serAtDest (r : Ser) : Ser × Option Byte :=
  ({ r with cks := destByte r.pkt.dest, stage := .sender }, some (destByte r.pkt.dest))

/-- Stage SENDER (R79). -/
def serAtSender (r : Ser) : Ser × Option Byte :=
  ({ r with cks := r.cks ^^^ senderByte r.pkt.src, stage := .length }, some (senderByte r.pkt.src))

/-- Stage LENGTH (R80): an empty payload skips DATA. -/
def serAtLength (r : Ser) : Ser × Option Byte :=
  ({ r with
      cks := r.cks ^^^ lengthByte r.pkt.payload
      stage := if lengthByte r.pkt.payload == 0#8 then .crc else .data },
    some (lengthByte r.pkt.payload))

/-- Stage DATA (R81): the byte at the cursor, which then advances. -/
def serAtData (r : Ser) : Option (Ser × Option Byte) :=
  match serpayAtCursor r with
  | some b =>
    some ({ r with
        cks := r.cks ^^^ b
        cursor := r.cursor + 1#8
        stage := if isLastAt r.cursor (lengthByte r.pkt.payload) then .crc else .data }, some b)
  | none => none

/-- Stage CRC (R82): the accumulator goes out unchanged. -/
def serAtCrc (r : Ser) : Ser × Option Byte := ({ r with stage := .done }, some r.cks)

/-- SER.NEXT on the registers (R87); in stage DONE nothing changes and the result is `None` (R83). -/
def serNext (r : Ser) : Option (Ser × Option Byte) :=
  match r.stage with
  | .dest => some (serAtDest r)
  | .sender => some (serAtSender r)
  | .length => some (serAtLength r)
  | .data => serAtData r
  | .crc => some (serAtCrc r)
  | .done => some (r, none)

/-- SER.NEXT (R87). -/
def execSerNext (s : State) : Host.Outcome State Fault Refusal := s.concludeSer (serNext s.ser)

/-- SER.NEXT.DEST (R78). -/
def execSerNextDest (s : State) : Host.Outcome State Fault Refusal :=
  if s.ser.stage = .dest then s.concludeSer (some (serAtDest s.ser)) else .refused .rowDoesNotApply

/-- SER.NEXT.SENDER (R79). -/
def execSerNextSender (s : State) : Host.Outcome State Fault Refusal :=
  if s.ser.stage = .sender then s.concludeSer (some (serAtSender s.ser)) else .refused .rowDoesNotApply

/-- SER.NEXT.LENGTH (R80). -/
def execSerNextLength (s : State) : Host.Outcome State Fault Refusal :=
  if s.ser.stage = .length then s.concludeSer (some (serAtLength s.ser)) else .refused .rowDoesNotApply

/-- SER.NEXT.DATA (R81). -/
def execSerNextData (s : State) : Host.Outcome State Fault Refusal :=
  if s.ser.stage = .data then s.concludeSer (serAtData s.ser) else .refused .rowDoesNotApply

/-- SER.NEXT.CRC (R82). -/
def execSerNextCrc (s : State) : Host.Outcome State Fault Refusal :=
  if s.ser.stage = .crc then s.concludeSer (some (serAtCrc s.ser)) else .refused .rowDoesNotApply

end Sys2Proof.Machine
end

