-- ==== Sys2Proof/Machine/Dispatch.lean ====
section
/-! DEFINITION. One arm per constructor of Instr, each a direct call of its meaning. -/

namespace Sys2Proof.Machine

def exec (i : Instr) (s : State) : Host.Outcome State Fault Refusal :=
  match i with
  | .pktConstruct dest src payload => Sys2Proof.Machine.execPktConstruct dest src payload s
  | .pktDest P => Sys2Proof.Machine.execPktDest P s
  | .pktSrc P => Sys2Proof.Machine.execPktSrc P s
  | .pktPayload P => Sys2Proof.Machine.execPktPayload P s
  | .serReset => Sys2Proof.Machine.execSerReset s
  | .serLoad P => Sys2Proof.Machine.execSerLoad P s
  | .serNext => Sys2Proof.Machine.execSerNext s
  | .desReset => Sys2Proof.Machine.execDesReset s
  | .desStep b => Sys2Proof.Machine.execDesStep b s
  | .desRead bytes => Sys2Proof.Machine.execDesRead bytes s
  | .serNextDest => Sys2Proof.Machine.execSerNextDest s
  | .serNextSender => Sys2Proof.Machine.execSerNextSender s
  | .serNextLength => Sys2Proof.Machine.execSerNextLength s
  | .serNextData => Sys2Proof.Machine.execSerNextData s
  | .serNextCrc => Sys2Proof.Machine.execSerNextCrc s
  | .desSeekAccept b => Sys2Proof.Machine.execDesSeekAccept b s
  | .desSeekDiscard b => Sys2Proof.Machine.execDesSeekDiscard b s
  | .desSender b => Sys2Proof.Machine.execDesSender b s
  | .desLengthZero => Sys2Proof.Machine.execDesLengthZero s
  | .desLengthNonzero b => Sys2Proof.Machine.execDesLengthNonzero b s
  | .desData b => Sys2Proof.Machine.execDesData b s
  | .desChecksum b => Sys2Proof.Machine.execDesChecksum b s

end Sys2Proof.Machine
end

