-- ==== Sys2Proof/Machine/Step.lean ====
section
/-! DEFINITION. One step of the machine: run the oldest pending request, or stay idle if there is none. -/

namespace Sys2Proof.Machine

/-- The oldest request is taken off the queue, decoded and run (R37; log 3). With none pending the state stays as it is:
"An instance never acts between operations" (R37), "an idle instance simply keeps its state" (R146). -/
def step (s : State) : Host.Outcome State Fault Refusal :=
  match s.fetch with
  | none => .next s
  | some (.ok (i, rest)) => exec i (s.setRequests rest)
  | some (.error e) => .refused (.undecodable e)

/-- The state with an opcode-table word's request put before all pending ones (log 3, log 14). -/
def State.withFetchWord (s : State) (nbits w : Nat) : State :=
  s.setRequests (requestOfTableWord nbits w ++ s.requests)

end Sys2Proof.Machine
end

