-- ==== Sys2Proof/Machine/Pseudo.lean ====
section
/-! DEFINITION. Runs of operations and the pseudo-operations SERIALIZE, DESERIALIZE and DES.DRAIN, each by its expansion
(30_encoding.md R60: "They add no behaviour"). Each answers none where one of its operations faults or is refused. -/

namespace Sys2Proof.Machine

/-- Operations issued one after the other (R37). -/
def runOps : List Instr → State → Host.Outcome State Fault Refusal
  | [], s => .next s
  | i :: is, s =>
    match exec i s with
    | .next t => runOps is t
    | .fault f => .fault f
    | .refused r => .refused r

/-- One operation and its result, as the host sees it. -/
def issue (i : Instr) (s : State) : Option (Result × State) :=
  match exec i s with
  | .next t => t.results.getLast?.map (fun r => (r, t))
  | .fault _ => none
  | .refused _ => none

/-- `SER.NEXT` repeated until it returns `None`, at most `n` times: the `Some` results in order. -/
def pullAll : Nat → State → Option (List Byte × State)
  | 0, _ => none
  | n + 1, s =>
    match issue .serNext s with
    | some (.byte (some b), t) => (pullAll n t).map (fun o => (b :: o.1, o.2))
    | some (_, t) => some ([], t)
    | none => none

/-- SERIALIZE P (R60). A frame has at most 259 bytes (R47), so 260 calls always reach the `None`. -/
def serialize (P : Packet) (s : State) : Option (List Byte × State) :=
  match issue (.serLoad P) s with
  | some (_, t) => pullAll 260 t
  | none => none

/-- DESERIALIZE bytes (R60): the outcome part of the read. -/
def deserialize (bytes : List Byte) (s : State) : Option (ReadOutcome × State) :=
  match issue .desReset s with
  | some (_, t) =>
    match issue (.desRead bytes) t with
    | some (.read _ o, u) => some (o, u)
    | some (_, _) => none
    | none => none
  | none => none

/-- The outcome the host records: all but `NoPacketYet` (R60). -/
def recorded : ReadOutcome → List ReadOutcome
  | .noPacketYet => []
  | .packet P => [.packet P]
  | .error e => [.error e]

/-- DES.DRAIN bytes (R60) with at most `n` reads; every read on a non-empty input consumes a byte, so `bytes.length` reads
are always enough. -/
def drain : Nat → List Byte → State → Option (List ReadOutcome × State)
  | _, [], s => some ([], s)
  | 0, _ :: _, _ => none
  | n + 1, b :: bs, s =>
    match issue (.desRead (b :: bs)) s with
    | some (.read k o, t) => (drain n ((b :: bs).drop k) t).map (fun r => (recorded o ++ r.1, r.2))
    | some (_, _) => none
    | none => none

end Sys2Proof.Machine
end

