-- ==== Sys2Proof/Safety.lean ====
section
/-! DEFINITION. What a sound state is: the register invariants of the spec (10_state.md R13, R14), the bookkeeping of the
model's own observation fields, and the states that operations reach from reset, the spec's premise of every claim (R152). -/

namespace Sys2Proof

/-- The families of the operation set, PKT, SER and DES (30_encoding.md R58). -/
inductive Family where
  | pkt | ser | des
  deriving DecidableEq, Repr

/-- The family of an instruction, the first part of its mnemonic; a row is of the family of the operation that dispatches to
it (R64). -/
def Instr.family : Instr → Family
  | .pktConstruct _ _ _ | .pktDest _ | .pktSrc _ | .pktPayload _ => .pkt
  | .serReset | .serLoad _ | .serNext | .serNextDest | .serNextSender | .serNextLength | .serNextData | .serNextCrc => .ser
  | .desReset | .desStep _ | .desRead _ | .desSeekAccept _ | .desSeekDiscard _ | .desSender _ | .desLengthZero
  | .desLengthNonzero _ | .desData _ | .desChecksum _ => .des

end Sys2Proof

namespace Sys2Proof.Machine

/-- The first `k` bytes of the held Packet's frame are the last bytes emitted, and `ser.cks` is their XOR, `X(k)` (R13). -/
def Ser.Sent (out : List Byte) (r : Ser) (k : Nat) : Prop :=
  (frame r.pkt).take k <:+ out ∧ r.cks = xorAll ((frame r.pkt).take k)

/-- The invariants of the Serializer's registers, row by row of the table of R13. -/
def Ser.Inv (out : List Byte) (r : Ser) : Prop :=
  match r.stage with
  | .dest => r.cursor = 0#8 ∧ r.cks = 0#8
  | .sender => r.cursor = 0#8 ∧ r.Sent out 1
  | .length => r.cursor = 0#8 ∧ r.Sent out 2
  | .data => r.cursor.toNat < r.pkt.len ∧ r.Sent out (3 + r.cursor.toNat)
  | .crc => r.cursor.toNat = r.pkt.len ∧ r.Sent out (3 + r.pkt.len)
  | .done =>
    (r.cursor = 0#8 ∧ r.cks = 0#8) ∨
    (r.cursor.toNat = r.pkt.len ∧ r.cks = xorAll ((frame r.pkt).take (3 + r.pkt.len)) ∧ frame r.pkt <:+ out)

/-- The bytes `fs` of a frame in progress are the last bytes consumed, its addresses are extracted from them and `des.cks` is
their XOR (R14, R53). -/
def Des.Got (inp : List Byte) (d : Des) (b0 b1 : Byte) (fs : List Byte) : Prop :=
  fs <:+ inp ∧ isStart b0 = true ∧ d.dest = low6 b0 ∧ d.src = low6 b1 ∧ d.cks = xorAll fs

/-- The invariants of the Deserializer's registers, row by row of the table of R14, with the store discipline of R22. -/
def Des.Inv (inp : List Byte) (d : Des) : Prop :=
  match d.stage with
  | .seek => d = desCleared
  | .sender => d.cursor = 0#8 ∧ d.len = 0#8 ∧ d.buf = [] ∧ ∃ b0, d.Got inp b0 0#8 [b0]
  | .length => d.cursor = 0#8 ∧ d.len = 0#8 ∧ d.buf = [] ∧ ∃ b0 b1, d.Got inp b0 b1 [b0, b1]
  | .data =>
    d.cursor.toNat < d.len.toNat ∧ Memory.wf d = true ∧ ∃ b0 b1, d.Got inp b0 b1 (b0 :: b1 :: d.len :: d.buf)
  | .checksum =>
    d.cursor = d.len ∧ Memory.wf d = true ∧ ∃ b0 b1, d.Got inp b0 b1 (b0 :: b1 :: d.len :: d.buf)

/-- The bytes a result hands to the output stream (R23). -/
def Result.emitted : Result → List Byte
  | .byte b => b.toList
  | .unit => []
  | .construct _ => []
  | .addr _ => []
  | .payload _ => []
  | .step _ => []
  | .read _ _ => []

/-- How many bytes of the input stream a result accounts for (R23, R109). -/
def Result.consumed : Result → Nat
  | .step _ => 1
  | .read n _ => n
  | .unit => 0
  | .construct _ => 0
  | .addr _ => 0
  | .payload _ => 0
  | .byte _ => 0

/-- The streams are what the results say (log 4). -/
def State.Logged (s : State) : Prop :=
  s.outStream = s.results.flatMap Result.emitted ∧ s.inStream.length = (s.results.map Result.consumed).sum

/-- The invariant of the machine. -/
def State.Inv (s : State) : Prop :=
  s.ser.Inv s.outStream ∧ s.des.Inv s.inStream ∧ s.Logged

/-- The states of a machine that has been reset and then only operated (R152): the host issues requests, steps run them. -/
inductive Reachable : State → Prop where
  | reset : Reachable State.reset
  | issue {s : State} (bs : List Byte) : Reachable s → Reachable (s.setRequests (s.requests ++ bs))
  | step {s t : State} : Reachable s → Sys2Proof.Machine.step s = .next t → Reachable t

end Sys2Proof.Machine
end

