-- ==== Sys2Proof/Certificates/Slice0/Obligations.lean ====
section
/-! DEFINITION. The statements for the provers. A next state is written as a record update of the state before, so that each
equality says the result AND the frame: every register, stream and field not named is unchanged. -/

open Sys2Proof Sys2Proof.Machine

/-! ### Packet operations -/

/-- 40_packet.md section of PKT.CONSTRUCT. Its precedence when both addresses are out of range is the spec's decision D8
("Destination first"), its operand width decision D7 (log 7). -/
def Obligations.PktConstructReportsFirstBadAddress : Prop :=
  ∀ (dest src : Byte) (payload : Payload) (s : State),
    exec (.pktConstruct dest src payload) s = .next { s with
      results := s.results ++ [.construct (
        if 63 < dest.toNat then .error .destinationAddressOutOfRange
        else if 63 < src.toNat then .error .senderAddressOutOfRange
        else .packet ⟨dest.setWidth 6, src.setWidth 6, payload⟩)] }

/-- R68. -/
def Obligations.PktConstructErrorLeavesNothingBehind : Prop :=
  ∀ (dest src : Byte) (payload : Payload) (s : State), 63 < dest.toNat ∨ 63 < src.toNat →
    ∃ e t, exec (.pktConstruct dest src payload) s = .next t ∧
      t = { s with results := s.results ++ [.construct (.error e)] } ∧
      ∀ (d r : Addr) (p : Payload), exec (.pktConstruct (d.setWidth 8) (r.setWidth 8) p) t =
        .next { t with results := t.results ++ [.construct (.packet ⟨d, r, p⟩)] }

/-- R66. -/
def Obligations.PktAccessorsReturnTheFields : Prop :=
  ∀ (P : Packet) (s : State),
    exec (.pktDest P) s = .next { s with results := s.results ++ [.addr P.dest] } ∧
    exec (.pktSrc P) s = .next { s with results := s.results ++ [.addr P.src] } ∧
    exec (.pktPayload P) s = .next { s with results := s.results ++ [.payload P.payload] }

/-- R124. -/
def Obligations.BoundaryLengthsAndAddresses : Prop :=
  (∀ P : Packet, P.len = 0 → ∃ b0 b1 b2 c, frame P = [b0, b1, b2, c]) ∧
  (∀ P : Packet, P.len = 255 → (frame P).length = 259) ∧
  (∀ (a : Byte) (payload : Payload) (s : State), a.toNat ≤ 63 →
    exec (.pktConstruct 64#8 a payload) s =
      .next { s with results := s.results ++ [.construct (.error .destinationAddressOutOfRange)] } ∧
    exec (.pktConstruct a 64#8 payload) s =
      .next { s with results := s.results ++ [.construct (.error .senderAddressOutOfRange)] })

/-! ### The wire frame -/

/-- R45: the fields of a frame by offset and by bit. -/
def Obligations.FrameFieldsByOffset : Prop :=
  ∀ P : Packet, ∃ b0 b1 b2 c : Byte,
    frame P = b0 :: b1 :: b2 :: (P.payload.bytes ++ [c]) ∧ (frame P).length = 4 + P.len ∧ P.len ≤ 255 ∧
    b0.getLsbD 7 = true ∧ b0.getLsbD 6 = false ∧ b0.setWidth 6 = P.dest ∧
    b1.getLsbD 7 = false ∧ b1.getLsbD 6 = false ∧ b1.setWidth 6 = P.src ∧
    b2.toNat = P.len ∧ c = (b0 :: b1 :: b2 :: P.payload.bytes).foldl (· ^^^ ·) 0#8

/-- R48 to R52: how each frame byte is assembled. -/
def Obligations.FrameBytesAssembled : Prop :=
  ∀ P : Packet,
    let b0 : Byte := 0x80#8 ||| (P.dest.setWidth 8 &&& 0x3F#8)
    let b1 : Byte := P.src.setWidth 8 &&& 0x3F#8
    let b2 : Byte := BitVec.ofNat 8 P.len
    let c : Byte := P.payload.bytes.foldl (· ^^^ ·) (b0 ^^^ b1 ^^^ b2)
    frame P = [b0, b1, b2] ++ P.payload.bytes ++ [c] ∧
    (b0 = 0b10#2 ++ P.dest ∧ b0 = 0x80#8 ||| P.dest.setWidth 8 ∧ 0x80 ≤ b0.toNat ∧ b0.toNat ≤ 0xBF) ∧
    (b1 = 0b00#2 ++ P.src ∧ b1.toNat ≤ 0x3F) ∧ b2.toNat = P.len ∧
    (∀ i, i < P.len → (frame P)[3 + i]? = P.payload.bytes[i]?) ∧ (P.len = 0 → frame P = [b0, b1, b2, c]) ∧
    c = ([b0, b1, b2] ++ P.payload.bytes).foldl (· ^^^ ·) 0#8

/-- 30_encoding.md section 1, an inference the spec marks as derived: the whole frame XORs to zero and determines its Packet. -/
def Obligations.FrameXorsToZeroAndIsInjective : Prop :=
  (∀ P : Packet, xorAll (frame P) = 0#8) ∧ (∀ P Q : Packet, frame P = frame Q → P = Q)

/-! ### The Serializer -/

/-- 41_serializer.md section 2 (the spec's decision D4): SER.RESET in any stage. The Packet held afterwards is unspecified
(a free value of the model, log 5): the statement says nothing of it. -/
def Obligations.SerResetExhausts : Prop :=
  ∀ s : State, ∃ P : Packet,
    exec .serReset s = .next { s with
      ser := { stage := .done, cks := 0#8, cursor := 0#8, pkt := P }
      results := s.results ++ [.unit]
      draws := s.draws + 1 }

/-- 41_serializer.md section 2 (decisions D5, D6, D19): SER.LOAD in stage DONE. -/
def Obligations.SerLoadStartsFrame : Prop :=
  ∀ (P : Packet) (s : State), s.ser.stage = .done →
    exec (.serLoad P) s = .next { s with
      ser := { stage := .dest, cks := 0#8, cursor := 0#8, pkt := P }
      results := s.results ++ [.unit] }

/-- 41_serializer.md section 2 (decision D5): SER.LOAD in any other stage is REFUSED. -/
def Obligations.SerLoadRefusedUnlessDone : Prop :=
  ∀ (P : Packet) (s : State), s.ser.stage ≠ .done → exec (.serLoad P) s = .refused .loadWhileBusy

/-- R78. -/
def Obligations.SerNextEmitsDestinationByte : Prop :=
  ∀ s : State, s.ser.stage = .dest →
    let b : Byte := 0x80#8 ||| (s.ser.pkt.dest.setWidth 8 &&& 0x3F#8)
    exec .serNext s = .next { s with
      ser := { s.ser with cks := b, stage := .sender }
      outStream := s.outStream ++ [b]
      results := s.results ++ [.byte (some b)] }

/-- R79. -/
def Obligations.SerNextEmitsSenderByte : Prop :=
  ∀ s : State, s.ser.stage = .sender →
    let b : Byte := s.ser.pkt.src.setWidth 8 &&& 0x3F#8
    exec .serNext s = .next { s with
      ser := { s.ser with cks := s.ser.cks ^^^ b, stage := .length }
      outStream := s.outStream ++ [b]
      results := s.results ++ [.byte (some b)] }

/-- R80. -/
def Obligations.SerNextEmitsLengthByte : Prop :=
  ∀ s : State, s.ser.stage = .length → ∃ b : Byte, b.toNat = s.ser.pkt.len ∧
    exec .serNext s = .next { s with
      ser := { s.ser with cks := s.ser.cks ^^^ b, stage := if s.ser.pkt.len = 0 then .crc else .data }
      outStream := s.outStream ++ [b]
      results := s.results ++ [.byte (some b)] }

/-- R81; "On entry `ser.cursor < ser.pkt.len`". -/
def Obligations.SerNextEmitsPayloadByte : Prop :=
  ∀ (s : State) (b : Byte), s.ser.stage = .data → s.ser.pkt.payload.bytes[s.ser.cursor.toNat]? = some b →
    exec .serNext s = .next { s with
      ser := { s.ser with
        cks := s.ser.cks ^^^ b
        cursor := s.ser.cursor + 1#8
        stage := if s.ser.cursor.toNat + 1 = s.ser.pkt.len then .crc else .data }
      outStream := s.outStream ++ [b]
      results := s.results ++ [.byte (some b)] } ∧
    (s.ser.cursor + 1#8).toNat = s.ser.cursor.toNat + 1

/-- R82. -/
def Obligations.SerNextEmitsChecksumByte : Prop :=
  ∀ s : State, s.ser.stage = .crc →
    exec .serNext s = .next { s with
      ser := { s.ser with stage := .done }
      outStream := s.outStream ++ [s.ser.cks]
      results := s.results ++ [.byte (some s.ser.cks)] }

/-- 41_serializer.md section 3, stage DONE: `None`, no register changes, and only SER.LOAD leaves the stage. That the stage
after SER.RESET is DONE is the spec's decision D4. -/
def Obligations.SerNextInDoneReturnsNone : Prop :=
  ∀ s : State, s.ser.stage = .done →
    exec .serNext s = .next { s with results := s.results ++ [.byte none] } ∧
    ∀ (i : Instr) (t : State), exec i s = .next t → t.ser.stage ≠ .done → ∃ P, i = .serLoad P

/-- 30_encoding.md section 8: in its stage a SER-EMIT row is what SER.NEXT does, and completes. That a row can be issued by
itself is the model's reading of the opcode table (log 2). -/
def Obligations.SerRowsActAsSerNext : Prop :=
  ∀ s : State,
    (s.ser.stage = .dest → ∃ t, exec .serNextDest s = .next t ∧ exec .serNext s = .next t ∧
      t.ser.stage = .sender ∧ t.outStream = s.outStream ++ [0x80#8 ||| s.ser.pkt.dest.setWidth 8]) ∧
    (s.ser.stage = .sender → ∃ t, exec .serNextSender s = .next t ∧ exec .serNext s = .next t ∧
      t.ser.stage = .length ∧ t.outStream = s.outStream ++ [s.ser.pkt.src.setWidth 8]) ∧
    (s.ser.stage = .length → ∃ t, exec .serNextLength s = .next t ∧ exec .serNext s = .next t ∧
      t.ser.stage = (if s.ser.pkt.len = 0 then .crc else .data) ∧
      t.outStream = s.outStream ++ [BitVec.ofNat 8 s.ser.pkt.len]) ∧
    (s.ser.stage = .data → s.ser.cursor.toNat < s.ser.pkt.len →
      ∃ t b, exec .serNextData s = .next t ∧ exec .serNext s = .next t ∧
        s.ser.pkt.payload.bytes[s.ser.cursor.toNat]? = some b ∧ t.ser.cks = s.ser.cks ^^^ b ∧
        t.ser.cursor.toNat = s.ser.cursor.toNat + 1 ∧
        t.ser.stage = (if s.ser.cursor.toNat + 1 = s.ser.pkt.len then .crc else .data) ∧
        t.outStream = s.outStream ++ [b]) ∧
    (s.ser.stage = .crc → ∃ t, exec .serNextCrc s = .next t ∧ exec .serNext s = .next t ∧
      t.ser.stage = .done ∧ t.outStream = s.outStream ++ [s.ser.cks])

/-- R16: the one place `ser.stage` can go from each stage. SER.RESET, which the spec adds by decision D4, goes to DONE. -/
def Obligations.SerStageNeverMovesBack : Prop :=
  ∀ (i : Instr) (s t : State), exec i s = .next t → t.ser.stage ≠ s.ser.stage →
    (i = .serReset ∧ t.ser.stage = .done) ∨
    (s.ser.stage = .dest ∧ t.ser.stage = .sender) ∨
    (s.ser.stage = .sender ∧ t.ser.stage = .length) ∨
    (s.ser.stage = .length ∧ t.ser.stage = .data ∧ s.ser.pkt.len ≠ 0) ∨
    (s.ser.stage = .length ∧ t.ser.stage = .crc ∧ s.ser.pkt.len = 0) ∨
    (s.ser.stage = .data ∧ t.ser.stage = .crc) ∨
    (s.ser.stage = .crc ∧ t.ser.stage = .done) ∨
    (s.ser.stage = .done ∧ t.ser.stage = .dest ∧ ∃ P, i = .serLoad P)

/-- 41_serializer.md section 4, an inference the spec marks as derived: after SER.LOAD the results of SER.NEXT are the bytes
of the frame in order and then `None` for ever. -/
def Obligations.SerializerEmitsFrameThenNone : Prop :=
  ∀ (P : Packet) (s : State) (k : Nat), s.ser.stage = .done →
    ∃ r : Ser, runOps (.serLoad P :: List.replicate k .serNext) s = .next { s with
      ser := r
      outStream := s.outStream ++ (frame P).take k
      results := s.results ++ [.unit] ++ ((frame P).take k).map (fun b => .byte (some b)) ++
        List.replicate (k - (4 + P.len)) (.byte none) }

/-! ### The Deserializer -/

/-- 42_deserializer.md section 2 (decision D3 for the values ZP does not force). -/
def Obligations.DesResetClears : Prop :=
  ∀ s : State,
    exec .desReset s = .next { s with
      des := { stage := .seek, dest := 0#6, src := 0#6, len := 0#8, cursor := 0#8, cks := 0#8, buf := [] }
      results := s.results ++ [.unit] }

/-- R103. -/
def Obligations.DesSeekAcceptsOnlyStartBytes : Prop :=
  ∀ (s : State) (b : Byte), s.des.stage = .seek →
    exec (.desStep b) s = .next { s with
      des := if b &&& 0xC0#8 = 0x80#8 then { s.des with dest := b.setWidth 6, cks := b, stage := .sender } else s.des
      inStream := s.inStream ++ [b]
      results := s.results ++ [.step .cont] } ∧
    (b &&& 0xC0#8 = 0x80#8 ↔ 0x80 ≤ b.toNat ∧ b.toNat ≤ 0xBF)

/-- R104. -/
def Obligations.DesSenderTakesAnyByte : Prop :=
  ∀ (s : State) (b : Byte), s.des.stage = .sender →
    exec (.desStep b) s = .next { s with
      des := { s.des with src := b.setWidth 6, cks := s.des.cks ^^^ b, stage := .length }
      inStream := s.inStream ++ [b]
      results := s.results ++ [.step .cont] }

/-- R105. -/
def Obligations.DesLengthDeclaresPayload : Prop :=
  ∀ (s : State) (b : Byte), s.des.stage = .length →
    exec (.desStep b) s = .next { s with
      des := { s.des with len := b, cks := s.des.cks ^^^ b, stage := if b = 0#8 then .checksum else .data }
      inStream := s.inStream ++ [b]
      results := s.results ++ [.step .cont] }

/-- R106; "On entry `des.cursor < des.len`", and the buffer is the bytes below the cursor (R22). -/
def Obligations.DesDataBuffersByte : Prop :=
  ∀ (s : State) (b : Byte), s.des.stage = .data → s.des.buf.length = s.des.cursor.toNat →
    s.des.cursor.toNat < s.des.len.toNat →
    exec (.desStep b) s = .next { s with
      des := { s.des with
        buf := s.des.buf ++ [b]
        cursor := s.des.cursor + 1#8
        cks := s.des.cks ^^^ b
        stage := if s.des.cursor + 1#8 = s.des.len then .checksum else .data }
      inStream := s.inStream ++ [b]
      results := s.results ++ [.step .cont] } ∧
    (s.des.cursor + 1#8).toNat = s.des.cursor.toNat + 1

/-- 42_deserializer.md section 3, stage CHECKSUM with frame completion (decisions D1, D2): the verdict, and in the same step
the reset state. -/
def Obligations.DesChecksumDecidesAndCompletes : Prop :=
  ∀ (s : State) (b : Byte) (p : Payload), s.des.stage = .checksum → p.bytes = s.des.buf →
    s.des.buf.length = s.des.cursor.toNat →
    exec (.desStep b) s = .next { s with
      des := Des.reset
      inStream := s.inStream ++ [b]
      results := s.results ++ [.step (if b = s.des.cks then .packet ⟨s.des.dest, s.des.src, p⟩ else .error .badCRC)] }

/-- 30_encoding.md section 3: every byte has exactly one row in every stage, DES.STEP does what that row does, and each row
completes there. That a row can be issued by itself is the model's reading of the opcode table (log 2). -/
def Obligations.DesStepRunsTheOneRowOfItsByte : Prop :=
  ∀ (s : State) (b : Byte), s.des.buf.length = s.des.cursor.toNat → (s.des.stage = .data → s.des.cursor.toNat < s.des.len.toNat) →
    ∃ t, exec (.desStep b) s = .next t ∧
      exec (.desSeekAccept b) s =
        (if s.des.stage = .seek ∧ b &&& 0xC0#8 = 0x80#8 then .next t else .refused .rowDoesNotApply) ∧
      exec (.desSeekDiscard b) s =
        (if s.des.stage = .seek ∧ (b &&& 0x80#8 = 0x00#8 ∨ b &&& 0xC0#8 = 0xC0#8) then .next t
          else .refused .rowDoesNotApply) ∧
      exec (.desSender b) s = (if s.des.stage = .sender then .next t else .refused .rowDoesNotApply) ∧
      (b = 0x00#8 → exec .desLengthZero s = (if s.des.stage = .length then .next t else .refused .rowDoesNotApply)) ∧
      exec (.desLengthNonzero b) s =
        (if s.des.stage = .length ∧ b ≠ 0x00#8 then .next t else .refused .rowDoesNotApply) ∧
      exec (.desData b) s = (if s.des.stage = .data then .next t else .refused .rowDoesNotApply) ∧
      exec (.desChecksum b) s = (if s.des.stage = .checksum then .next t else .refused .rowDoesNotApply)

/-- log 2: the model gives a SER-EMIT row no meaning in a stage that is not its own (DESIGN CHOICE). -/
def Obligations.SerRowsRefusedOutsideTheirStage : Prop :=
  ∀ s : State,
    (s.ser.stage ≠ .dest → exec .serNextDest s = .refused .rowDoesNotApply) ∧
    (s.ser.stage ≠ .sender → exec .serNextSender s = .refused .rowDoesNotApply) ∧
    (s.ser.stage ≠ .length → exec .serNextLength s = .refused .rowDoesNotApply) ∧
    (s.ser.stage ≠ .data → exec .serNextData s = .refused .rowDoesNotApply) ∧
    (s.ser.stage ≠ .crc → exec .serNextCrc s = .refused .rowDoesNotApply)

/-- 10_state.md section 3 (decision D1 for the move from CHECKSUM): the moves of `des.stage` under DES.STEP. -/
def Obligations.DesStageMovesAsListed : Prop :=
  ∀ (s t : State) (b : Byte), exec (.desStep b) s = .next t →
    (s.des.stage = .seek ∧ t.des.stage = (if b &&& 0xC0#8 = 0x80#8 then .sender else .seek)) ∨
    (s.des.stage = .sender ∧ t.des.stage = .length) ∨
    (s.des.stage = .length ∧ t.des.stage = (if b = 0#8 then .checksum else .data)) ∨
    (s.des.stage = .data ∧ t.des.stage = (if s.des.cursor + 1#8 = s.des.len then .checksum else .data)) ∨
    (s.des.stage = .checksum ∧ t.des.stage = .seek)

/-- R109: DES.READ is a run of DES.STEPs that ends at the first result other than Continue; how many bytes it consumes; the
state it leaves. -/
def Obligations.DesReadRunsStepsUntilAnOutcome : Prop :=
  (∀ (s t : State) (b : Byte) (bs : List Byte) (r : StepResult), exec (.desStep b) s = .next t →
    t.results = s.results ++ [.step r] →
    (∀ P, r = .packet P → exec (.desRead (b :: bs)) s = .next { t with results := s.results ++ [.read 1 (.packet P)] }) ∧
    (∀ e, r = .error e → exec (.desRead (b :: bs)) s = .next { t with results := s.results ++ [.read 1 (.error e)] }) ∧
    (∀ u n o, r = .cont → exec (.desRead bs) t = .next u → u.results = t.results ++ [.read n o] →
      exec (.desRead (b :: bs)) s = .next { u with results := s.results ++ [.read (n + 1) o] })) ∧
  (∀ (s t : State) (bytes : List Byte), exec (.desRead bytes) s = .next t →
    ∃ n o, t = { s with
        des := t.des
        inStream := s.inStream ++ bytes.take n
        results := s.results ++ [.read n o] } ∧
      (o = .noPacketYet → n = bytes.length) ∧
      (o ≠ .noPacketYet → 1 ≤ n ∧ n ≤ bytes.length ∧ t.des = Des.reset) ∧
      (bytes ≠ [] → 1 ≤ n))

/-- 42_deserializer.md section 4, an inference the spec marks as derived: the empty read, in every stage. -/
def Obligations.DesReadOfNothingChangesNothing : Prop :=
  ∀ s : State, exec (.desRead []) s = .next { s with results := s.results ++ [.read 0 .noPacketYet] }

/-- R112: totality, from every state with the invariants of R14 on the cursor and the store discipline of R22. -/
def Obligations.DesStepAndReadAlwaysReturn : Prop :=
  ∀ s : State, s.des.buf.length = s.des.cursor.toNat →
    (s.des.stage ≠ .data → s.des.stage ≠ .checksum → s.des.cursor = 0#8) →
    (s.des.stage = .data → s.des.cursor.toNat < s.des.len.toNat) →
    (∀ b : Byte, ∃ t r, exec (.desStep b) s = .next t ∧ t.results = s.results ++ [.step r]) ∧
    (∀ bytes : List Byte, ∃ t n o, exec (.desRead bytes) s = .next t ∧ t.results = s.results ++ [.read n o])

/-- 40_packet.md, PKT.CONSTRUCT inside the Deserializer, an inference the spec marks as derived (decision D25): the address
errors never come out of DES.STEP or DES.READ. -/
def Obligations.DesNeverReportsAddressErrors : Prop :=
  ∀ (s t : State),
    (∀ (b : Byte) (e : Err), exec (.desStep b) s = .next t → t.results = s.results ++ [.step (.error e)] → e = .badCRC) ∧
    (∀ (bytes : List Byte) (n : Nat) (e : Err), exec (.desRead bytes) s = .next t →
      t.results = s.results ++ [.read n (.error e)] → e = .badCRC)

/-- 42_deserializer.md section 4 (where DES.READ stops and what it counts) over section 3 and 30_encoding.md section 2: what a
fresh Deserializer makes of any bytes of the shape of a frame, and that it leaves the bytes behind them alone. That it is in
the reset state again is the spec's decisions D1 and D2 (log 15). -/
def Obligations.DesReadsAnyBytesOfFrameShape : Prop :=
  ∀ (s : State) (b0 b1 c : Byte) (p : Payload) (rest : List Byte), s.des = Des.reset → b0 &&& 0xC0#8 = 0x80#8 →
    exec (.desRead (b0 :: b1 :: BitVec.ofNat 8 p.bytes.length :: (p.bytes ++ c :: rest))) s = .next { s with
      inStream := s.inStream ++ b0 :: b1 :: BitVec.ofNat 8 p.bytes.length :: (p.bytes ++ [c])
      results := s.results ++ [.read (4 + p.bytes.length) (
        if c = xorAll (b0 :: b1 :: BitVec.ofNat 8 p.bytes.length :: p.bytes)
        then .packet ⟨b0.setWidth 6, b1.setWidth 6, p⟩ else .error .badCRC)] }

/-! ### Both codecs together -/

/-- R120: the round trip, and no outcome on any proper part of the frame. -/
def Obligations.RoundTripDeliversThePacket : Prop :=
  ∀ (P : Packet) (s : State), s.des = Des.reset →
    exec (.desRead (frame P)) s = .next { s with
      inStream := s.inStream ++ frame P
      results := s.results ++ [.read (4 + P.len) (.packet P)] } ∧
    (∀ k, k < (frame P).length → ∃ d, exec (.desRead ((frame P).take k)) s = .next { s with
      des := d
      inStream := s.inStream ++ (frame P).take k
      results := s.results ++ [.read k .noPacketYet] }) ∧
    (s.ser.stage = .done → ∃ t u, serialize P s = some (frame P, t) ∧ deserialize (frame P) t = some (.packet P, u))

/-- 43_properties.md, chunking: the general form, an inference the spec marks as derived. A read that found no frame and the
read after it make the one read of both inputs; a read that found one would have stopped there whatever followed. -/
def Obligations.ReadsComposeAcrossChunks : Prop :=
  ∀ (s t : State) (xs ys : List Byte) (n : Nat) (o : ReadOutcome),
    exec (.desRead xs) s = .next t → t.results = s.results ++ [.read n o] →
    (o ≠ .noPacketYet → exec (.desRead (xs ++ ys)) s = .next t) ∧
    (o = .noPacketYet → ∀ u m q, exec (.desRead ys) t = .next u → u.results = t.results ++ [.read m q] →
      exec (.desRead (xs ++ ys)) s = .next { u with results := s.results ++ [.read (n + m) q] })

/-- 43_properties.md, chunking: a frame cut anywhere into chunks, fed in turn to a fresh Deserializer. -/
def Obligations.FrameInChunksDeliversThePacket : Prop :=
  ∀ (P : Packet) (s : State) (chunks : List (List Byte)) (last : List Byte), s.des = Des.reset →
    chunks.flatten ++ last = frame P → last ≠ [] →
    runOps (chunks.map .desRead ++ [.desRead last]) s = .next { s with
      inStream := s.inStream ++ frame P
      results := s.results ++ chunks.map (fun g => .read g.length .noPacketYet) ++
        [.read last.length (.packet P)] }

/-- 43_properties.md, checksum sensitivity, the rows where the property holds and the flip of the checksum byte itself
(an inference the spec marks as derived; decision D20). -/
def Obligations.SingleBitFlipsReportBadCrc : Prop :=
  ∀ (P : Packet) (s : State) (k j : Nat), s.des = Des.reset → j < 8 →
    (k = 0 ∧ j < 6) ∨ k = 1 ∨ (3 ≤ k ∧ k < 4 + P.len) →
    exec (.desRead ((frame P).modify k (· ^^^ (1#8 <<< j)))) s = .next { s with
      inStream := s.inStream ++ (frame P).modify k (· ^^^ (1#8 <<< j))
      results := s.results ++ [.read (4 + P.len) (.error .badCRC)] }

/-- 43_properties.md, checksum sensitivity, the two rows of the length byte (an inference the spec marks as derived): a
larger length swallows the checksum byte; a smaller one compares a payload byte with the accumulator. -/
def Obligations.WrongLengthByteMisplacesTheChecksum : Prop :=
  ∀ (P : Packet) (s : State) (n : Byte), s.des = Des.reset →
    (P.len < n.toNat → ∃ d, exec (.desRead ((frame P).set 2 n)) s = .next { s with
      des := d
      inStream := s.inStream ++ (frame P).set 2 n
      results := s.results ++ [.read (4 + P.len) .noPacketYet] }) ∧
    (n.toNat < P.len → ∀ (p : Payload) (c : Byte), p.bytes = P.payload.bytes.take n.toNat →
      P.payload.bytes[n.toNat]? = some c →
      ∃ t, exec (.desRead ((frame P).set 2 n)) s = .next t ∧ t.des = Des.reset ∧
        t.results = s.results ++ [.read (4 + n.toNat) (
          if c = xorAll (destByte P.dest :: senderByte P.src :: n :: p.bytes) then .packet ⟨P.dest, P.src, p⟩
          else .error .badCRC)])

/-- 43_properties.md, checksum sensitivity, last sentence (an inference the spec marks as derived): no single-bit flip of a
frame lets the original Packet through. -/
def Obligations.NoSingleBitFlipDeliversTheOriginal : Prop :=
  ∀ (P : Packet) (s : State) (k j : Nat), s.des = Des.reset → k < 4 + P.len → j < 8 →
    ∃ t n o, exec (.desRead ((frame P).modify k (· ^^^ (1#8 <<< j)))) s = .next t ∧
      t.results = s.results ++ [.read n o] ∧ o ≠ .packet P

/-- R123. -/
def Obligations.NoiseBeforeAFrameIsSkipped : Prop :=
  ∀ (P : Packet) (z : List Byte) (s : State), s.des = Des.reset → (∀ b ∈ z, b &&& 0xC0#8 ≠ 0x80#8) →
    exec (.desRead (z ++ frame P)) s = .next { s with
      inStream := s.inStream ++ (z ++ frame P)
      results := s.results ++ [.read (z.length + (4 + P.len)) (.packet P)] }

/-- 43_properties.md, successive frames (an inference the spec marks as derived): frames with noise between them and failed
frames among them, drained by the host's loop. Each item is noise, a Packet and the checksum byte sent behind its body. -/
def Obligations.SuccessiveFramesAreAllReported : Prop :=
  ∀ (items : List (List Byte × Packet × Byte)) (s : State), s.des = Des.reset →
    (∀ it ∈ items, ∀ b ∈ it.1, b &&& 0xC0#8 ≠ 0x80#8) →
    let bytes := items.flatMap (fun it => it.1 ++ frameBody it.2.1 ++ [it.2.2])
    let verdict := fun (it : List Byte × Packet × Byte) =>
      if it.2.2 = xorAll (frameBody it.2.1) then ReadOutcome.packet it.2.1 else .error .badCRC
    drain bytes.length bytes s = some (items.map verdict, { s with
      inStream := s.inStream ++ bytes
      results := s.results ++ items.map (fun it => .read (it.1.length + (4 + it.2.1.len)) (verdict it)) })

/-- R56: reserved bits of the sender byte are ignored for the address and summed as sent. -/
def Obligations.ReservedSenderBitsAreIgnoredButSummed : Prop :=
  ∀ (P : Packet) (s : State) (b1 c : Byte), s.des = Des.reset → b1.setWidth 6 = P.src → b1 &&& 0xC0#8 ≠ 0#8 →
    c = xorAll (destByte P.dest :: b1 :: lengthByte P.payload :: P.payload.bytes) →
    exec (.desRead (destByte P.dest :: b1 :: lengthByte P.payload :: (P.payload.bytes ++ [c]))) s = .next { s with
      inStream := s.inStream ++ destByte P.dest :: b1 :: lengthByte P.payload :: (P.payload.bytes ++ [c])
      results := s.results ++ [.read (4 + P.len) (.packet P)] } ∧
    (∀ Q : Packet, ∃ b, (frame Q)[1]? = some b ∧ b &&& 0xC0#8 = 0#8) ∧
    (∀ Q : Packet, frame Q ≠ destByte P.dest :: b1 :: lengthByte P.payload :: (P.payload.bytes ++ [c])) ∧
    (frame P)[1]? ≠ some b1 ∧ (frame P)[3 + P.len]? ≠ some c

/-- 43_properties.md, what the checksum does not catch (an inference the spec marks as derived): payload bytes in another
order pass. -/
def Obligations.ReorderedPayloadIsNotDetected : Prop :=
  ∀ (P Q : Packet) (s : State), s.des = Des.reset → Q.dest = P.dest → Q.src = P.src →
    Q.payload.bytes.Perm P.payload.bytes →
    exec (.desRead (frameBody Q ++ [xorAll (frameBody P)])) s = .next { s with
      inStream := s.inStream ++ (frameBody Q ++ [xorAll (frameBody P)])
      results := s.results ++ [.read (4 + Q.len) (.packet Q)] }

/-! ### The whole machine -/

/-- 10_state.md section 2 (R15's ownership; R27, R115; decision D19), family by family: a Packet operation leaves both units,
both streams and the free draws (log 5) alone, a Serializer operation leaves the Deserializer and the input stream, a
Deserializer operation leaves the Serializer, the output stream and the free draws. -/
def Obligations.UnitsDoNotTouchEachOther : Prop :=
  ∀ (i : Instr) (s t : State), exec i s = .next t →
    (i.family = .pkt → t.ser = s.ser ∧ t.des = s.des ∧ t.outStream = s.outStream ∧ t.inStream = s.inStream ∧
      t.draws = s.draws) ∧
    (i.family = .ser → t.des = s.des ∧ t.inStream = s.inStream) ∧
    (i.family = .des → t.ser = s.ser ∧ t.outStream = s.outStream ∧ t.draws = s.draws)

/-- R27: each reset returns, with the other unit as it was. -/
def Obligations.ResetOfOneUnitLeavesTheOther : Prop :=
  ∀ s : State,
    (∃ t, exec .serReset s = .next t ∧ t.des = s.des ∧ t.inStream = s.inStream) ∧
    (∃ t, exec .desReset s = .next t ∧ t.ser = s.ser ∧ t.outStream = s.outStream ∧ t.draws = s.draws)

/-- 20_memory.md section 5: what a read answers depends on the Deserializer and its input alone; nothing of the Serializer,
the streams or the earlier results reaches it. -/
def Obligations.ReadDependsOnTheDeserializerAlone : Prop :=
  ∀ (s s' t : State) (bytes : List Byte), s.des = s'.des → exec (.desRead bytes) s = .next t →
    ∃ t' r, exec (.desRead bytes) s' = .next t' ∧ t'.des = t.des ∧
      t.results = s.results ++ [r] ∧ t'.results = s'.results ++ [r]

/-- 00_scope.md section 5 with log 4: every operation returns exactly one result; the streams only grow; no operation touches
the pending requests; only SER.RESET draws a free value (log 5). -/
def Obligations.EveryOperationReturnsOneResult : Prop :=
  ∀ (i : Instr) (s t : State), exec i s = .next t →
    (∃ r, t.results = s.results ++ [r]) ∧ t.requests = s.requests ∧
    s.outStream <+: t.outStream ∧ s.inStream <+: t.inStream ∧ (i ≠ .serReset → t.draws = s.draws)

/-- 10_state.md section 8: the reset values. Those of `des.dest`, `des.src`, `des.len`, `des.cks` are decision D3, those of
the Serializer decision D4; the held Packet is left out, being the model's choice (log 6). -/
def Obligations.ResetRegistersAsListed : Prop :=
  State.reset.des = { stage := .seek, dest := 0#6, src := 0#6, len := 0#8, cursor := 0#8, cks := 0#8, buf := [] } ∧
  State.reset.ser.stage = .done ∧ State.reset.ser.cks = 0#8 ∧ State.reset.ser.cursor = 0#8

/-- The invariants of 10_state.md (R13, R14, marked as derived there), with the streams as the results say (log 4), hold at
reset. -/
def Obligations.InvariantAtReset : Prop := State.reset.Inv

/-- And every step keeps them, from every state that has them. -/
def Obligations.EveryStepKeepsTheInvariant : Prop :=
  ∀ s t : State, s.Inv → step s = .next t → t.Inv

/-- The spec's premise of every claim (decision D15) made one: a state reached by operations from reset has the invariants,
and a step from it never faults. -/
def Obligations.ReachableStatesNeverFault : Prop :=
  ∀ s : State, Reachable s → s.Inv ∧ ∀ f : Fault, step s ≠ .fault f

/-! ### Requests -/

/-- log 1: no bit of a request is dropped, for every well-formed instruction and whatever follows it. -/
def Obligations.DecodeReadsBackEncode : Prop :=
  ∀ (i : Instr) (rest : List Byte), i.wf = true → decode (encode i ++ rest) = .ok (i, rest)

/-- log 1: bytes are read as at most one thing: what the decoder reads is well-formed and its encoding is those bytes. -/
def Obligations.DecodedBytesAreTheEncoding : Prop :=
  ∀ (bs rest : List Byte) (i : Instr), decode bs = .ok (i, rest) → i.wf = true ∧ bs = encode i ++ rest

/-- Words written out: the operation numbers of 30_encoding.md section 7 and the SEEK rows of its section 3 (log 1). -/
def Obligations.SampleWordsDecode : Prop :=
  decodeTableWord 8 0b00000000 = some (.pktConstruct 0#8 0#8 ⟨[], by decide⟩) ∧
  decodeTableWord 8 0b00000110 = some .serNext ∧
  decodeTableWord 16 0x8308 = some (.desStep 0x83#8) ∧
  decodeTableWord 8 0b10000011 = some (.desSeekAccept 0x83#8) ∧
  decodeTableWord 8 0b11000011 = some (.desSeekDiscard 0xC3#8) ∧
  decodeTableWord 8 0b00001010 = none

/-- 20_memory.md section 5 with log 3: a step runs the oldest request, and takes off the queue exactly its bytes. -/
def Obligations.StepRunsTheDecodedRequest : Prop :=
  ∀ (s : State) (i : Instr) (rest : List Byte), decode s.requests = .ok (i, rest) →
    step s = exec i { s with requests := rest }

/-- 20_memory.md section 5 ("An instance never acts between operations") with log 3: with nothing requested nothing changes. -/
def Obligations.IdleStepChangesNothing : Prop :=
  ∀ s : State, s.requests = [] → step s = .next s

/-- log 1: bytes that are no request stop the step under the decoder's name for it. -/
def Obligations.StepRefusesUndecodableBytes : Prop :=
  ∀ (s : State) (e : DecodeError), s.requests ≠ [] → decode s.requests = .error e → step s = .refused (.undecodable e)
end

