-- ==== Sys2Proof/Laws/Decode.lean ====
section
/-! SUPPORT. The parts of a request: reading back what was written, and writing back what was read. -/

namespace Sys2Proof

@[simp] theorem parsedMap_ok {α β : Type} (f : α → β) (a : α) (rest : List Byte) :
    parsedMap f (.ok (a, rest)) = .ok (f a, rest) := rfl

theorem parsedMap_eq_ok {α β : Type} {f : α → β} {x : Parsed α} {y : β} {rest : List Byte} :
    parsedMap f x = .ok (y, rest) ↔ ∃ a, x = .ok (a, rest) ∧ f a = y := by
  cases x with
  | error e => simp [parsedMap]
  | ok z => obtain ⟨a, r⟩ := z; simp [parsedMap, and_comm]

theorem decodeByte_eq_ok {bs rest : List Byte} {b : Byte} : decodeByte bs = .ok (b, rest) ↔ bs = b :: rest := by
  cases bs with
  | nil => simp [decodeByte]
  | cons c cs => simp [decodeByte]

theorem Payload.eq_of_bytes {p q : Payload} (h : p.bytes = q.bytes) : p = q := by
  cases p
  cases q
  simpa using h

theorem decodePayload_encode (p : Payload) (rest : List Byte) : decodePayload (encodePayload p ++ rest) = .ok (p, rest) := by
  have hb := p.bound
  simp only [Config.maxPayload] at hb
  have hn : (BitVec.ofNat 8 p.bytes.length).toNat = p.bytes.length := by
    rw [BitVec.toNat_ofNat]
    omega
  simp only [encodePayload, List.cons_append, decodePayload, hn]
  rw [if_pos (by simp)]
  simp only [List.drop_left, Except.ok.injEq, Prod.mk.injEq, and_true]
  exact Payload.eq_of_bytes (by simp)

theorem decodePayload_eq_ok {bs rest : List Byte} {p : Payload} (h : decodePayload bs = .ok (p, rest)) :
    bs = encodePayload p ++ rest := by
  cases bs with
  | nil => simp [decodePayload] at h
  | cons n cs =>
    simp only [decodePayload] at h
    split at h
    · rename_i hl
      simp only [Except.ok.injEq, Prod.mk.injEq] at h
      obtain ⟨rfl, rfl⟩ := h
      simp only [encodePayload, List.length_take, Nat.min_eq_left hl, BitVec.ofNat_toNat, BitVec.setWidth_eq,
        List.cons_append, List.take_append_drop]
    · cases h

theorem toNat_addr_le (a : Addr) : (a.setWidth 8).toNat ≤ Config.addrMax := by
  have := a.isLt
  simp only [BitVec.toNat_setWidth, Config.addrMax]
  omega

theorem setWidth_back (a : Addr) : (a.setWidth 8).setWidth 6 = a := by
  rw [← BitVec.toNat_inj]
  have := a.isLt
  simp only [BitVec.toNat_setWidth]
  omega

theorem setWidth_forth {b : Byte} (h : b.toNat ≤ Config.addrMax) : (b.setWidth 6).setWidth 8 = b := by
  rw [← BitVec.toNat_inj]
  simp only [Config.addrMax] at h
  simp only [BitVec.toNat_setWidth]
  omega

theorem decodePacket_encode (P : Packet) (rest : List Byte) : decodePacket (encodePacket P ++ rest) = .ok (P, rest) := by
  simp only [encodePacket, List.cons_append, decodePacket]
  rw [if_pos ⟨toNat_addr_le _, toNat_addr_le _⟩, decodePayload_encode, parsedMap_ok]
  simp only [setWidth_back]

theorem decodePacket_eq_ok {bs rest : List Byte} {P : Packet} (h : decodePacket bs = .ok (P, rest)) :
    bs = encodePacket P ++ rest := by
  unfold decodePacket at h
  split at h
  · split at h
    · rename_i hc
      obtain ⟨p, hp, rfl⟩ := parsedMap_eq_ok.1 h
      simp only [encodePacket, setWidth_forth hc.1, setWidth_forth hc.2, List.cons_append, decodePayload_eq_ok hp]
    · cases h
  · cases h

theorem decodeSequence_encode (bs rest : List Byte) : decodeSequence (encodeSequence bs ++ rest) = .ok (bs, rest) := by
  induction bs with
  | nil => cases rest <;> simp [encodeSequence, decodeSequence]
  | cons b bs ih => simp [encodeSequence, decodeSequence, ih]

theorem decodeSequence_eq_ok :
    ∀ bs rest out : List Byte, decodeSequence bs = .ok (out, rest) → bs = encodeSequence out ++ rest
  | [], _, _, h => by simp [decodeSequence] at h
  | [f], rest, out, h => by
    simp only [decodeSequence] at h
    split at h
    · simp_all [encodeSequence]
    · split at h <;> cases h
  | f :: b :: r, rest, out, h => by
    simp only [decodeSequence] at h
    split at h
    · simp only [Except.ok.injEq, Prod.mk.injEq] at h
      obtain ⟨rfl, rfl⟩ := h
      simp_all [encodeSequence]
    · split at h
      · obtain ⟨a, ha, rfl⟩ := parsedMap_eq_ok.1 h
        rw [decodeSequence_eq_ok r rest a ha]
        simp_all [encodeSequence]
      · cases h

end Sys2Proof
end

