-- ==== Sys2Proof/Laws/State.lean ====
section
/-! SUPPORT. One lemma per field per update of State, and the same for the operations that end an instruction, so that no
proof unfolds a record update. -/

namespace Sys2Proof.Machine

variable (s : State)

@[simp] theorem State.setSer_ser (r : Ser) : (s.setSer r).ser = r := rfl
@[simp] theorem State.setSer_des (r : Ser) : (s.setSer r).des = s.des := rfl
@[simp] theorem State.setSer_requests (r : Ser) : (s.setSer r).requests = s.requests := rfl
@[simp] theorem State.setSer_results (r : Ser) : (s.setSer r).results = s.results := rfl
@[simp] theorem State.setSer_outStream (r : Ser) : (s.setSer r).outStream = s.outStream := rfl
@[simp] theorem State.setSer_inStream (r : Ser) : (s.setSer r).inStream = s.inStream := rfl
@[simp] theorem State.setSer_draws (r : Ser) : (s.setSer r).draws = s.draws := rfl

@[simp] theorem State.setDes_ser (d : Des) : (s.setDes d).ser = s.ser := rfl
@[simp] theorem State.setDes_des (d : Des) : (s.setDes d).des = d := rfl
@[simp] theorem State.setDes_requests (d : Des) : (s.setDes d).requests = s.requests := rfl
@[simp] theorem State.setDes_results (d : Des) : (s.setDes d).results = s.results := rfl
@[simp] theorem State.setDes_outStream (d : Des) : (s.setDes d).outStream = s.outStream := rfl
@[simp] theorem State.setDes_inStream (d : Des) : (s.setDes d).inStream = s.inStream := rfl
@[simp] theorem State.setDes_draws (d : Des) : (s.setDes d).draws = s.draws := rfl

@[simp] theorem State.emit_ser (bs : List Byte) : (s.emit bs).ser = s.ser := rfl
@[simp] theorem State.emit_des (bs : List Byte) : (s.emit bs).des = s.des := rfl
@[simp] theorem State.emit_requests (bs : List Byte) : (s.emit bs).requests = s.requests := rfl
@[simp] theorem State.emit_results (bs : List Byte) : (s.emit bs).results = s.results := rfl
@[simp] theorem State.emit_outStream (bs : List Byte) : (s.emit bs).outStream = s.outStream ++ bs := rfl
@[simp] theorem State.emit_inStream (bs : List Byte) : (s.emit bs).inStream = s.inStream := rfl
@[simp] theorem State.emit_draws (bs : List Byte) : (s.emit bs).draws = s.draws := rfl

@[simp] theorem State.consume_ser (bs : List Byte) : (s.consume bs).ser = s.ser := rfl
@[simp] theorem State.consume_des (bs : List Byte) : (s.consume bs).des = s.des := rfl
@[simp] theorem State.consume_requests (bs : List Byte) : (s.consume bs).requests = s.requests := rfl
@[simp] theorem State.consume_results (bs : List Byte) : (s.consume bs).results = s.results := rfl
@[simp] theorem State.consume_outStream (bs : List Byte) : (s.consume bs).outStream = s.outStream := rfl
@[simp] theorem State.consume_inStream (bs : List Byte) : (s.consume bs).inStream = s.inStream ++ bs := rfl
@[simp] theorem State.consume_draws (bs : List Byte) : (s.consume bs).draws = s.draws := rfl

@[simp] theorem State.setRequests_ser (bs : List Byte) : (s.setRequests bs).ser = s.ser := rfl
@[simp] theorem State.setRequests_des (bs : List Byte) : (s.setRequests bs).des = s.des := rfl
@[simp] theorem State.setRequests_requests (bs : List Byte) : (s.setRequests bs).requests = bs := rfl
@[simp] theorem State.setRequests_results (bs : List Byte) : (s.setRequests bs).results = s.results := rfl
@[simp] theorem State.setRequests_outStream (bs : List Byte) : (s.setRequests bs).outStream = s.outStream := rfl
@[simp] theorem State.setRequests_inStream (bs : List Byte) : (s.setRequests bs).inStream = s.inStream := rfl
@[simp] theorem State.setRequests_draws (bs : List Byte) : (s.setRequests bs).draws = s.draws := rfl

@[simp] theorem State.draw_ser : (s.draw).ser = s.ser := rfl
@[simp] theorem State.draw_des : (s.draw).des = s.des := rfl
@[simp] theorem State.draw_requests : (s.draw).requests = s.requests := rfl
@[simp] theorem State.draw_results : (s.draw).results = s.results := rfl
@[simp] theorem State.draw_outStream : (s.draw).outStream = s.outStream := rfl
@[simp] theorem State.draw_inStream : (s.draw).inStream = s.inStream := rfl
@[simp] theorem State.draw_draws : (s.draw).draws = s.draws + 1 := rfl

@[simp] theorem State.respond_ser (r : Result) : (s.respond r).ser = s.ser := rfl
@[simp] theorem State.respond_des (r : Result) : (s.respond r).des = s.des := rfl
@[simp] theorem State.respond_requests (r : Result) : (s.respond r).requests = s.requests := rfl
@[simp] theorem State.respond_results (r : Result) : (s.respond r).results = s.results ++ [r] := rfl
@[simp] theorem State.respond_outStream (r : Result) : (s.respond r).outStream = s.outStream := rfl
@[simp] theorem State.respond_inStream (r : Result) : (s.respond r).inStream = s.inStream := rfl
@[simp] theorem State.respond_draws (r : Result) : (s.respond r).draws = s.draws := rfl

end Sys2Proof.Machine
end

