-- ==== Sys2Proof/Laws/Frame.lean ====
section
/-! SUPPORT. Small facts about the XOR of bytes, the fields of a frame byte and the frame of a Packet. -/

namespace Sys2Proof.Machine

theorem foldl_xor_start (bs : List Byte) (a : Byte) : bs.foldl (· ^^^ ·) a = a ^^^ bs.foldl (· ^^^ ·) 0#8 := by
  induction bs generalizing a with
  | nil => simp
  | cons b bs ih => rw [List.foldl_cons, ih, List.foldl_cons, ih (0#8 ^^^ b)]; simp [BitVec.xor_assoc]

@[simp] theorem xorAll_nil : xorAll [] = 0#8 := rfl

theorem xorAll_cons (b : Byte) (bs : List Byte) : xorAll (b :: bs) = b ^^^ xorAll bs := by
  simp [xorAll, foldl_xor_start bs b]

theorem xorAll_append (xs ys : List Byte) : xorAll (xs ++ ys) = xorAll xs ^^^ xorAll ys := by
  simp [xorAll, List.foldl_append, foldl_xor_start ys (xs.foldl (· ^^^ ·) 0#8)]

/-- Appending the next byte of a sum is XOR-ing it in: how `ser.cks` and `des.cks` accumulate (R86, R113). -/
theorem xorAll_snoc (bs : List Byte) (b : Byte) : xorAll (bs ++ [b]) = xorAll bs ^^^ b := by
  simp [xorAll_append, xorAll_cons]

/-- The sum does not see the order of the bytes (R126). -/
theorem xorAll_perm {xs ys : List Byte} (h : xs.Perm ys) : xorAll xs = xorAll ys := by
  induction h with
  | nil => rfl
  | cons b _ ih => simp [xorAll_cons, ih]
  | swap a b _ => rw [xorAll_cons, xorAll_cons, xorAll_cons, xorAll_cons, ← BitVec.xor_assoc, BitVec.xor_comm b a,
      BitVec.xor_assoc]
  | trans _ _ ih₁ ih₂ => exact ih₁.trans ih₂

theorem low6_eq (b : Byte) : low6 b = b.setWidth 6 := by
  unfold low6
  revert b
  decide

@[simp] theorem low6_destByte (a : Addr) : low6 (destByte a) = a := by
  revert a
  decide

@[simp] theorem low6_senderByte (a : Addr) : low6 (senderByte a) = a := by
  revert a
  decide

@[simp] theorem isStart_destByte (a : Addr) : isStart (destByte a) = true := by
  revert a
  decide

theorem isStart_iff (b : Byte) : isStart b = true ↔ b &&& 0xC0#8 = 0x80#8 := by
  simp [isStart]

@[simp] theorem toNat_lengthByte (p : Payload) : (lengthByte p).toNat = p.bytes.length := by
  have := p.bound
  simp only [Config.maxPayload] at this
  simp only [lengthByte, BitVec.toNat_ofNat]
  omega

theorem lengthByte_eq_zero (p : Payload) : lengthByte p = 0#8 ↔ p.bytes.length = 0 := by
  rw [← BitVec.toNat_inj]
  simp

/-- The byte comparison of R81 and R106 is the comparison of the numbers: neither side wraps. -/
theorem isLastAt_iff (c n : Byte) (h : c.toNat < n.toNat) : isLastAt c n = true ↔ c.toNat + 1 = n.toNat := by
  have := n.isLt
  simp only [isLastAt, beq_iff_eq, ← BitVec.toNat_inj, BitVec.toNat_add, BitVec.toNat_ofNat]
  omega

theorem toNat_succ_of_lt (c n : Byte) (h : c.toNat < n.toNat) : (c + 1#8).toNat = c.toNat + 1 := by
  have := n.isLt
  simp only [BitVec.toNat_add, BitVec.toNat_ofNat]
  omega

@[simp] theorem length_frameBody (P : Packet) : (frameBody P).length = 3 + P.len := by
  simp [frameBody, Packet.len]
  omega

@[simp] theorem length_frame (P : Packet) : (frame P).length = 4 + P.len := by
  simp only [frame, List.length_append, length_frameBody, List.length_cons, List.length_nil]
  omega

theorem Payload.ext_bytes {p q : Payload} (h : p.bytes = q.bytes) : p = q := by
  cases p
  cases q
  simpa using h

end Sys2Proof.Machine
end

