-- ==== Sys2Proof/Laws/Ops.lean ====
section
/-! SUPPORT. What each shared operation can do, said once. -/

namespace Sys2Proof.Machine

theorem conclude_next {s t : State} {r : Result} : s.conclude r = .next t ↔ t = s.respond r := by
  simp [State.conclude, eq_comm]

/-- A step of the Serializer that answers a next state changed the registers, emitted its byte and returned it. -/
theorem concludeSer_next {s t : State} {o : Option (Ser × Option Byte)} :
    s.concludeSer o = .next t ↔ ∃ r b, o = some (r, b) ∧ t = ((s.setSer r).emit b.toList).respond (.byte b) := by
  cases o with
  | none => simp [State.concludeSer]
  | some x => obtain ⟨r, b⟩ := x; simp [State.concludeSer, conclude_next]

/-- A step of the Deserializer that answers a next state changed the registers, consumed its byte and returned. -/
theorem concludeDes_next {s t : State} {b : Byte} {o : Option (Des × StepResult)} :
    s.concludeDes b o = .next t ↔ ∃ d r, o = some (d, r) ∧ t = ((s.setDes d).consume [b]).respond (.step r) := by
  cases o with
  | none => simp [State.concludeDes]
  | some x => obtain ⟨d, r⟩ := x; simp [State.concludeDes, conclude_next]

@[simp] theorem concludeSer_some (s : State) (r : Ser) (b : Option Byte) :
    s.concludeSer (some (r, b)) = .next (((s.setSer r).emit b.toList).respond (.byte b)) := rfl

@[simp] theorem concludeDes_some (s : State) (b : Byte) (d : Des) (r : StepResult) :
    s.concludeDes b (some (d, r)) = .next (((s.setDes d).consume [b]).respond (.step r)) := rfl

/-! ### The payload stores -/

theorem storeRead_of_lt {st : List Byte} {i : Nat} (h : i < st.length) : storeRead st i = some st[i] := by
  simp [storeRead, h]

/-- A write at the end of the content appends (R22). -/
theorem storeWrite_at_end {st : List Byte} {b : Byte} (h : st.length < 255) :
    storeWrite st st.length b = some (st ++ [b]) := by
  simp [storeWrite, h]

theorem storeCopy_all (st : List Byte) : storeCopy st st.length = some st := by
  simp [storeCopy]

/-- Every store the operation answers keeps the discipline of R22: its length is the cursor after. -/
theorem desbufPut_length {d : Des} {b : Byte} {buf : List Byte} (h : desbufPut d b = some buf) :
    buf.length = d.cursor.toNat + 1 := by
  simp only [desbufPut, storeWrite] at h
  split at h
  · cases h; simp; omega
  · cases h

theorem desbufPut_of_wf {d : Des} (b : Byte) (hw : Memory.wf d = true) (hc : d.cursor.toNat < d.len.toNat) :
    desbufPut d b = some (d.buf ++ [b]) := by
  have := d.len.isLt
  simp only [Memory.wf, beq_iff_eq] at hw
  simp only [desbufPut, ← hw]
  exact storeWrite_at_end (by omega)

theorem desbufPayload_of_wf {d : Des} (p : Payload) (hp : p.bytes = d.buf) (hw : Memory.wf d = true) :
    desbufPayload d = some p := by
  simp only [Memory.wf, beq_iff_eq] at hw
  have hc : storeCopy d.buf d.cursor.toNat = some d.buf := by rw [← hw]; exact storeCopy_all _
  unfold desbufPayload
  split
  · rename_i bs h
    rw [hc] at h
    cases h
    exact congrArg some (Payload.ext_bytes hp.symm)
  · rename_i h
    rw [hc] at h
    cases h

/-- A buffer that meets R22 fits a payload: the cursor is 8 bits. -/
theorem exists_payload_of_wf {d : Des} (hw : Memory.wf d = true) : ∃ p : Payload, p.bytes = d.buf := by
  have := d.cursor.isLt
  simp only [Memory.wf, beq_iff_eq] at hw
  exact ⟨⟨d.buf, by simp only [Config.maxPayload]; omega⟩, rfl⟩

@[simp] theorem desCleared_eq_reset : desCleared = Des.reset := rfl

/-- The store discipline holds at reset. -/
theorem wf_reset : Memory.wf Des.reset = true := by decide

end Sys2Proof.Machine
end

