-- ==== Sys2Proof/Laws/Serializer.lean ====
section
/-! SUPPORT. The frame byte by byte, and SER.NEXT as a walk along it: at position `k` of the frame the Serializer emits byte
`k` and moves to position `k + 1` (R13, R84). -/

namespace Sys2Proof.Machine

/-! ### The bytes of a frame -/

theorem frame_eq (P : Packet) :
    frame P = destByte P.dest :: senderByte P.src :: lengthByte P.payload ::
      (P.payload.bytes ++ [xorAll (frameBody P)]) := rfl

@[simp] theorem frame_zero (P : Packet) : (frame P)[0]? = some (destByte P.dest) := rfl
@[simp] theorem frame_one (P : Packet) : (frame P)[1]? = some (senderByte P.src) := rfl
@[simp] theorem frame_two (P : Packet) : (frame P)[2]? = some (lengthByte P.payload) := rfl

theorem frame_payload (P : Packet) {i : Nat} (h : i < P.len) : (frame P)[3 + i]? = P.payload.bytes[i]? := by
  rw [frame_eq, show 3 + i = i + 1 + 1 + 1 by omega]
  simp only [List.getElem?_cons_succ]
  exact List.getElem?_append_left h

theorem frame_checksum (P : Packet) : (frame P)[3 + P.len]? = some (xorAll (frameBody P)) := by
  rw [frame, ← length_frameBody P]
  exact List.getElem?_concat_length

theorem frame_take_body (P : Packet) : (frame P).take (3 + P.len) = frameBody P := by
  rw [frame, ← length_frameBody P]
  exact List.take_left

theorem frame_take_all (P : Packet) : (frame P).take (4 + P.len) = frame P := by
  rw [← length_frame P]
  exact List.take_length

/-- One more byte of the frame, and the running checksum with it. -/
theorem take_succ_of_get {l : List Byte} {k : Nat} {b : Byte} (h : l[k]? = some b) : l.take (k + 1) = l.take k ++ [b] := by
  rw [List.take_add_one, h]
  rfl

theorem xorAll_take_succ {l : List Byte} {k : Nat} {b : Byte} (h : l[k]? = some b) :
    xorAll (l.take (k + 1)) = xorAll (l.take k) ^^^ b := by
  rw [take_succ_of_get h, xorAll_snoc]

/-! ### Positions -/

/-- The Serializer stands at byte `k` of the frame of `P`: the rows of the table of R13 from SER.LOAD to the end. -/
structure Ser.At (P : Packet) (k : Nat) (r : Ser) : Prop where
  pkt : r.pkt = P
  cks : r.cks = xorAll ((frame P).take (min k (3 + P.len)))
  place :
    (k = 0 ∧ r.stage = .dest ∧ r.cursor = 0#8) ∨ (k = 1 ∧ r.stage = .sender ∧ r.cursor = 0#8) ∨
    (k = 2 ∧ r.stage = .length ∧ r.cursor = 0#8) ∨
    (k = 3 + r.cursor.toNat ∧ r.cursor.toNat < P.len ∧ r.stage = .data) ∨
    (k = 3 + P.len ∧ r.stage = .crc ∧ r.cursor.toNat = P.len) ∨
    (k = 4 + P.len ∧ r.stage = .done ∧ r.cursor.toNat = P.len)

/-- SER.LOAD puts the Serializer at the first byte. -/
theorem at_zero_of_load (P : Packet) : Ser.At P 0 { stage := .dest, cks := 0#8, cursor := 0#8, pkt := P } :=
  ⟨rfl, by simp, .inl ⟨rfl, rfl, rfl⟩⟩

theorem serAtData_of_get {r : Ser} {b : Byte} (h : r.pkt.payload.bytes[r.cursor.toNat]? = some b) :
    serAtData r = some ({ r with
      cks := r.cks ^^^ b
      cursor := r.cursor + 1#8
      stage := if isLastAt r.cursor (lengthByte r.pkt.payload) then .crc else .data }, some b) := by
  simp [serAtData, serpayAtCursor, storeRead, h]

theorem serNext_of_dest {r : Ser} (h : r.stage = .dest) : serNext r = some (serAtDest r) := by rw [serNext, h]
theorem serNext_of_sender {r : Ser} (h : r.stage = .sender) : serNext r = some (serAtSender r) := by rw [serNext, h]
theorem serNext_of_length {r : Ser} (h : r.stage = .length) : serNext r = some (serAtLength r) := by rw [serNext, h]
theorem serNext_of_data {r : Ser} (h : r.stage = .data) : serNext r = serAtData r := by rw [serNext, h]
theorem serNext_of_crc {r : Ser} (h : r.stage = .crc) : serNext r = some (serAtCrc r) := by rw [serNext, h]

/-- SER.NEXT at byte `k` returns byte `k` and stands at byte `k + 1` (R78 to R82). -/
theorem serNext_at {P : Packet} {k : Nat} {r : Ser} (h : r.At P k) (hk : k < 4 + P.len) :
    ∃ r' b, (frame P)[k]? = some b ∧ serNext r = some (r', some b) ∧ r'.At P (k + 1) := by
  obtain ⟨rfl, hc, ⟨rfl, hs, h0⟩ | ⟨rfl, hs, h0⟩ | ⟨rfl, hs, h0⟩ | ⟨rfl, hl, hs⟩ | ⟨rfl, hs, hl⟩ | ⟨rfl, hs, hl⟩⟩ := h
  · refine ⟨(serAtDest r).1, _, frame_zero _, serNext_of_dest hs, rfl, ?_, .inr (.inl ⟨rfl, rfl, h0⟩)⟩
    rw [show min (0 + 1) (3 + r.pkt.len) = 0 + 1 by omega, xorAll_take_succ (frame_zero _)]
    simp [serAtDest]
  · refine ⟨(serAtSender r).1, _, frame_one _, serNext_of_sender hs, rfl, ?_, .inr (.inr (.inl ⟨rfl, rfl, h0⟩))⟩
    rw [show min (1 + 1) (3 + r.pkt.len) = 1 + 1 by omega, xorAll_take_succ (frame_one _)]
    rw [show min 1 (3 + r.pkt.len) = 1 by omega] at hc
    simp [serAtSender, hc]
  · refine ⟨(serAtLength r).1, _, frame_two _, serNext_of_length hs, rfl, ?_, ?_⟩
    · rw [show min (2 + 1) (3 + r.pkt.len) = 2 + 1 by omega, xorAll_take_succ (frame_two _)]
      rw [show min 2 (3 + r.pkt.len) = 2 by omega] at hc
      simp [serAtLength, hc]
    · by_cases hz : r.pkt.len = 0
      · have hb : (lengthByte r.pkt.payload == 0#8) = true := by simpa [lengthByte_eq_zero] using hz
        refine .inr (.inr (.inr (.inr (.inl ⟨by omega, ?_, ?_⟩))))
        · simp [serAtLength, hb]
        · simp [serAtLength, h0, hz]
      · have hb : (lengthByte r.pkt.payload == 0#8) = false := by
          rw [beq_eq_false_iff_ne, ne_eq, lengthByte_eq_zero]
          exact hz
        refine .inr (.inr (.inr (.inl ⟨?_, ?_, ?_⟩)))
        · simp [serAtLength, h0]
        · simp only [serAtLength, h0]
          exact Nat.pos_of_ne_zero hz
        · simp [serAtLength, hb]
  · have hg : r.pkt.payload.bytes[r.cursor.toNat]? = some r.pkt.payload.bytes[r.cursor.toNat] := List.getElem?_eq_getElem hl
    have hf := (frame_payload r.pkt hl).trans hg
    have hll : r.cursor.toNat < (lengthByte r.pkt.payload).toNat := by simpa using hl
    refine ⟨_, _, hf, (serNext_of_data hs).trans (serAtData_of_get hg), rfl, ?_, ?_⟩
    · rw [show min (3 + r.cursor.toNat + 1) (3 + r.pkt.len) = 3 + r.cursor.toNat + 1 by omega, xorAll_take_succ hf]
      rw [show min (3 + r.cursor.toNat) (3 + r.pkt.len) = 3 + r.cursor.toNat by omega] at hc
      simp [hc]
    · have hn := toNat_succ_of_lt _ _ hll
      by_cases he : r.cursor.toNat + 1 = r.pkt.len
      · have hb : isLastAt r.cursor (lengthByte r.pkt.payload) = true := (isLastAt_iff _ _ hll).2 (by simpa using he)
        exact .inr (.inr (.inr (.inr (.inl ⟨by omega, by simp [hb], by simp only; omega⟩))))
      · have hb : isLastAt r.cursor (lengthByte r.pkt.payload) = false := by
          rw [← Bool.not_eq_true, isLastAt_iff _ _ hll]
          simpa using he
        exact .inr (.inr (.inr (.inl ⟨by simp only; omega, by simp only; omega, by simp [hb]⟩)))
  · refine ⟨(serAtCrc r).1, _, frame_checksum _, ?_, rfl, ?_, .inr (.inr (.inr (.inr (.inr ⟨by omega, rfl, hl⟩))))⟩
    · rw [show min (3 + r.pkt.len) (3 + r.pkt.len) = 3 + r.pkt.len by omega, frame_take_body] at hc
      rw [serNext_of_crc hs, ← hc]
      rfl
    · rw [show min (3 + r.pkt.len + 1) (3 + r.pkt.len) = min (3 + r.pkt.len) (3 + r.pkt.len) by omega]
      exact hc
  · omega

/-- At the end of the frame SER.NEXT returns `None` and nothing moves (R83). -/
theorem serNext_done {r : Ser} (h : r.stage = .done) : serNext r = some (r, none) := by
  rw [serNext, h]

/-- A position and the bytes emitted so far are the invariants of R13. -/
theorem inv_of_at {P : Packet} {k : Nat} {r : Ser} {out : List Byte} (h : r.At P k) (ho : (frame P).take k <:+ out) :
    r.Inv out := by
  obtain ⟨rfl, hc, ⟨rfl, hs, h0⟩ | ⟨rfl, hs, h0⟩ | ⟨rfl, hs, h0⟩ | ⟨rfl, hl, hs⟩ | ⟨rfl, hs, hl⟩ | ⟨rfl, hs, hl⟩⟩ := h
  · simp [Ser.Inv, hs, h0, hc]
  · rw [show min 1 (3 + r.pkt.len) = 1 by omega] at hc
    simp only [Ser.Inv, hs]
    exact ⟨h0, ho, hc⟩
  · rw [show min 2 (3 + r.pkt.len) = 2 by omega] at hc
    simp only [Ser.Inv, hs]
    exact ⟨h0, ho, hc⟩
  · rw [show min (3 + r.cursor.toNat) (3 + r.pkt.len) = 3 + r.cursor.toNat by omega] at hc
    simp only [Ser.Inv, hs]
    exact ⟨hl, ho, hc⟩
  · rw [show min (3 + r.pkt.len) (3 + r.pkt.len) = 3 + r.pkt.len by omega] at hc
    simp only [Ser.Inv, hs]
    exact ⟨hl, ho, hc⟩
  · rw [show min (4 + r.pkt.len) (3 + r.pkt.len) = 3 + r.pkt.len by omega] at hc
    rw [frame_take_all] at ho
    simp only [Ser.Inv, hs]
    exact .inr ⟨hl, hc, ho⟩

/-- And the other way round, but for a Serializer that has been reset and not loaded. -/
theorem at_of_inv {r : Ser} {out : List Byte} (h : r.Inv out) :
    (r.stage = .done ∧ r.cursor = 0#8 ∧ r.cks = 0#8) ∨ ∃ k, r.At r.pkt k ∧ (frame r.pkt).take k <:+ out := by
  unfold Ser.Inv at h
  split at h <;> rename_i hs
  · exact .inr ⟨0, ⟨rfl, by simp [h.2], .inl ⟨rfl, hs, h.1⟩⟩, by simp⟩
  · exact .inr ⟨1, ⟨rfl, by rw [show min 1 (3 + r.pkt.len) = 1 by omega]; exact h.2.2, .inr (.inl ⟨rfl, hs, h.1⟩)⟩, h.2.1⟩
  · exact .inr ⟨2, ⟨rfl, by rw [show min 2 (3 + r.pkt.len) = 2 by omega]; exact h.2.2, .inr (.inr (.inl ⟨rfl, hs, h.1⟩))⟩,
      h.2.1⟩
  · obtain ⟨hl, ho, hc⟩ := h
    exact .inr ⟨_, ⟨rfl, by rw [show min (3 + r.cursor.toNat) (3 + r.pkt.len) = 3 + r.cursor.toNat by omega]; exact hc,
      .inr (.inr (.inr (.inl ⟨rfl, hl, hs⟩)))⟩, ho⟩
  · obtain ⟨hl, ho, hc⟩ := h
    exact .inr ⟨_, ⟨rfl, by rw [Nat.min_self]; exact hc, .inr (.inr (.inr (.inr (.inl ⟨rfl, hs, hl⟩))))⟩, ho⟩
  · obtain ⟨h0, hc⟩ | ⟨hl, hc, ho⟩ := h
    · exact .inl ⟨hs, h0, hc⟩
    · exact .inr ⟨4 + r.pkt.len, ⟨rfl, by rw [show min (4 + r.pkt.len) (3 + r.pkt.len) = 3 + r.pkt.len by omega]; exact hc,
        .inr (.inr (.inr (.inr (.inr ⟨rfl, hs, hl⟩))))⟩, by rwa [frame_take_all]⟩

end Sys2Proof.Machine
end

