-- ==== Sys2Proof/Laws/Deserializer.lean ====
section
/-! SUPPORT. DES.STEP stage by stage, DES.READ as a run that composes, and what a run over the parts of a frame leaves. -/

namespace Sys2Proof.Machine

/-! ### One step -/

theorem desStep_seek_start {b : Byte} {d : Des} (h : d.stage = .seek) (hb : isStart b = true) :
    desStep b d = some (continuing (desSeekAccept b d)) := by
  simp [desStep, classify, h, hb, desRow]

theorem desStep_seek_noise {b : Byte} {d : Des} (h : d.stage = .seek) (hb : isStart b = false) :
    desStep b d = some (continuing d) := by
  simp [desStep, classify, h, hb, desRow]

theorem desStep_sender {b : Byte} {d : Des} (h : d.stage = .sender) :
    desStep b d = some (continuing (desSender b d)) := by
  simp [desStep, classify, h, desRow]

/-- The two rows of stage LENGTH as one (R105). -/
theorem desStep_length {b : Byte} {d : Des} (h : d.stage = .length) :
    desStep b d = some (continuing
      { d with len := b, cks := d.cks ^^^ b, stage := if b = 0#8 then .checksum else .data }) := by
  by_cases hb : b = 0#8
  · subst hb
    simp [desStep, classify, h, desRow, desLengthZero]
  · simp [desStep, classify, h, desRow, hb, desLengthNonzero]

theorem desStep_data {b : Byte} {d : Des} (h : d.stage = .data) : desStep b d = (desData b d).map continuing := by
  simp [desStep, classify, h, desRow]

theorem desStep_checksum {b : Byte} {d : Des} (h : d.stage = .checksum) : desStep b d = desChecksum b d := by
  simp [desStep, classify, h, desRow]

/-- Stage DATA where the store discipline holds (R106). -/
theorem desStep_data_of_wf {b : Byte} {d : Des} (h : d.stage = .data) (hw : Memory.wf d = true)
    (hc : d.cursor.toNat < d.len.toNat) :
    desStep b d = some (continuing { d with
      buf := d.buf ++ [b]
      cursor := d.cursor + 1#8
      cks := d.cks ^^^ b
      stage := if isLastAt d.cursor d.len then .checksum else .data }) := by
  rw [desStep_data h]
  simp [desData, desbufPut_of_wf b hw hc]

/-- PKT.CONSTRUCT on two 6-bit addresses always gives the Packet (R67). -/
theorem construct_of_addrs (a b : Addr) (p : Payload) :
    construct (a.setWidth 8) (b.setWidth 8) p = .packet ⟨a, b, p⟩ := by
  have ha : addrOutOfRange (a.setWidth 8) = false := by revert a; decide
  have hb : addrOutOfRange (b.setWidth 8) = false := by revert b; decide
  simp [construct, ha, hb]

/-- Stage CHECKSUM where the store discipline holds (R107, R108). -/
theorem desStep_checksum_of_wf {b : Byte} {d : Des} (p : Payload) (h : d.stage = .checksum) (hp : p.bytes = d.buf)
    (hw : Memory.wf d = true) :
    desStep b d = some (Des.reset, if b = d.cks then .packet ⟨d.dest, d.src, p⟩ else .error .badCRC) := by
  rw [desStep_checksum h]
  by_cases hb : b = d.cks
  · simp [desChecksum, desVerdict, hb, desbufPayload_of_wf p hp hw, construct_of_addrs, stepOfConstruct]
  · simp [desChecksum, desVerdict, hb]

/-- What a step can return, and that only a completed frame returns anything but Continue (R137). -/
theorem desStep_result {b : Byte} {d d' : Des} {r : StepResult} (h : desStep b d = some (d', r)) :
    r = .cont ∨ (d' = Des.reset ∧ d.stage = .checksum ∧ ((∃ P, r = .packet P) ∨ r = .error .badCRC)) := by
  unfold desStep desRow at h
  split at h
  · simp only [Option.some.injEq, continuing, Prod.mk.injEq] at h; exact .inl h.2.symm
  · simp only [Option.some.injEq, continuing, Prod.mk.injEq] at h; exact .inl h.2.symm
  · simp only [Option.some.injEq, continuing, Prod.mk.injEq] at h; exact .inl h.2.symm
  · simp only [Option.some.injEq, continuing, Prod.mk.injEq] at h; exact .inl h.2.symm
  · simp only [Option.some.injEq, continuing, Prod.mk.injEq] at h; exact .inl h.2.symm
  · obtain ⟨x, -, hx⟩ := Option.map_eq_some_iff.1 h
    simp only [continuing, Prod.mk.injEq] at hx
    exact .inl hx.2.symm
  · rename_i hc
    have hs : d.stage = .checksum := by
      unfold classify at hc
      split at hc
      · split at hc <;> cases hc
      · cases hc
      · split at hc <;> cases hc
      · cases hc
      · assumption
    unfold desChecksum at h
    split at h
    · rename_i r' hv
      simp only [Option.some.injEq, Prod.mk.injEq] at h
      obtain ⟨rfl, rfl⟩ := h
      refine .inr ⟨rfl, hs, ?_⟩
      unfold desVerdict at hv
      split at hv
      · split at hv
        · rw [construct_of_addrs] at hv
          simp only [Option.some.injEq, stepOfConstruct] at hv
          exact .inl ⟨_, hv.symm⟩
        · cases hv
      · simp only [Option.some.injEq] at hv
        exact .inr hv.symm
    · cases h

/-! ### Runs -/

/-- Counts `n` bytes already consumed in front of a run. -/
def after (n : Nat) : Option (Des × Nat × ReadOutcome) → Option (Des × Nat × ReadOutcome)
  | some (d, m, o) => some (d, n + m, o)
  | none => none

@[simp] theorem after_some (n m : Nat) (d : Des) (o : ReadOutcome) : after n (some (d, m, o)) = some (d, n + m, o) := rfl

@[simp] theorem after_after (n m : Nat) (x : Option (Des × Nat × ReadOutcome)) : after n (after m x) = after (n + m) x := by
  cases x with
  | none => rfl
  | some x => obtain ⟨d, k, o⟩ := x; simp [Nat.add_assoc]

@[simp] theorem after_zero (x : Option (Des × Nat × ReadOutcome)) : after 0 x = x := by
  cases x with
  | none => rfl
  | some x => obtain ⟨d, k, o⟩ := x; simp

theorem desRead_nil (d : Des) : desRead [] d = some (d, 0, .noPacketYet) := rfl

theorem desRead_cons_cont {b : Byte} {bs : List Byte} {d d' : Des} (h : desStep b d = some (d', .cont)) :
    desRead (b :: bs) d = after 1 (desRead bs d') := by
  simp only [desRead, h, outcomeOfStep]
  cases desRead bs d' with
  | none => rfl
  | some x => obtain ⟨d, k, o⟩ := x; simp [Nat.add_comm]

theorem desRead_cons_packet {b : Byte} {bs : List Byte} {d d' : Des} {P : Packet}
    (h : desStep b d = some (d', .packet P)) : desRead (b :: bs) d = some (d', 1, .packet P) := by
  simp [desRead, h, outcomeOfStep]

theorem desRead_cons_error {b : Byte} {bs : List Byte} {d d' : Des} {e : Err}
    (h : desStep b d = some (d', .error e)) : desRead (b :: bs) d = some (d', 1, .error e) := by
  simp [desRead, h, outcomeOfStep]

theorem desRead_cons_none {b : Byte} {bs : List Byte} {d : Des} (h : desStep b d = none) : desRead (b :: bs) d = none := by
  simp [desRead, h]

/-- Everything a run that returns can have done (R109). -/
theorem desRead_result {bytes : List Byte} {d d' : Des} {n : Nat} {o : ReadOutcome} (h : desRead bytes d = some (d', n, o)) :
    (o = .noPacketYet ∧ n = bytes.length) ∨
    (((∃ P, o = .packet P) ∨ o = .error .badCRC) ∧ 1 ≤ n ∧ n ≤ bytes.length ∧ d' = Des.reset) := by
  induction bytes generalizing d d' n o with
  | nil => simp only [desRead_nil, Option.some.injEq, Prod.mk.injEq] at h; exact .inl ⟨h.2.2.symm, h.2.1.symm⟩
  | cons b bs ih =>
    cases hs : desStep b d with
    | none => rw [desRead_cons_none hs] at h; cases h
    | some x =>
      obtain ⟨d₁, r⟩ := x
      obtain rfl | ⟨rfl, -, ⟨P, rfl⟩ | rfl⟩ := desStep_result hs
      · rw [desRead_cons_cont hs] at h
        cases hr : desRead bs d₁ with
        | none => rw [hr] at h; cases h
        | some y =>
          obtain ⟨d₂, m, q⟩ := y
          rw [hr, after_some] at h
          simp only [Option.some.injEq, Prod.mk.injEq] at h
          obtain ⟨rfl, rfl, rfl⟩ := h
          obtain ⟨rfl, rfl⟩ | ⟨hq, h1, h2, hd⟩ := ih hr
          · exact .inl ⟨rfl, by simp [Nat.add_comm]⟩
          · exact .inr ⟨hq, by omega, by simp only [List.length_cons]; omega, hd⟩
      · rw [desRead_cons_packet hs] at h
        simp only [Option.some.injEq, Prod.mk.injEq] at h
        obtain ⟨rfl, rfl, rfl⟩ := h
        exact .inr ⟨.inl ⟨P, rfl⟩, by simp⟩
      · rw [desRead_cons_error hs] at h
        simp only [Option.some.injEq, Prod.mk.injEq] at h
        obtain ⟨rfl, rfl, rfl⟩ := h
        exact .inr ⟨.inr rfl, by simp⟩

/-- A run that found no frame is continued by the next one (R121). -/
theorem desRead_append_of_none_yet {xs ys : List Byte} {d d' : Des} {n : Nat}
    (h : desRead xs d = some (d', n, .noPacketYet)) : desRead (xs ++ ys) d = after xs.length (desRead ys d') := by
  induction xs generalizing d n with
  | nil =>
    simp only [desRead_nil, Option.some.injEq, Prod.mk.injEq] at h
    rw [h.1]
    exact (after_zero _).symm
  | cons b bs ih =>
    cases hs : desStep b d with
    | none => rw [desRead_cons_none hs] at h; cases h
    | some x =>
      obtain ⟨d₁, r⟩ := x
      obtain rfl | ⟨rfl, -, ⟨P, rfl⟩ | rfl⟩ := desStep_result hs
      · rw [desRead_cons_cont hs] at h
        cases hr : desRead bs d₁ with
        | none => rw [hr] at h; cases h
        | some y =>
          obtain ⟨d₂, m, q⟩ := y
          rw [hr, after_some] at h
          simp only [Option.some.injEq, Prod.mk.injEq] at h
          obtain ⟨rfl, rfl, rfl⟩ := h
          rw [List.cons_append, desRead_cons_cont hs, ih hr, after_after, List.length_cons, Nat.add_comm]
      · rw [desRead_cons_packet hs] at h; simp at h
      · rw [desRead_cons_error hs] at h; simp at h

/-- A run that found a frame does not look at what follows it (R109). -/
theorem desRead_append_of_outcome {xs ys : List Byte} {d d' : Des} {n : Nat} {o : ReadOutcome}
    (h : desRead xs d = some (d', n, o)) (ho : o ≠ .noPacketYet) : desRead (xs ++ ys) d = some (d', n, o) := by
  induction xs generalizing d n with
  | nil =>
    simp only [desRead_nil, Option.some.injEq, Prod.mk.injEq] at h
    exact absurd h.2.2.symm ho
  | cons b bs ih =>
    cases hs : desStep b d with
    | none => rw [desRead_cons_none hs] at h; cases h
    | some x =>
      obtain ⟨d₁, r⟩ := x
      obtain rfl | ⟨rfl, -, ⟨P, rfl⟩ | rfl⟩ := desStep_result hs
      · rw [desRead_cons_cont hs] at h
        cases hr : desRead bs d₁ with
        | none => rw [hr] at h; cases h
        | some y =>
          obtain ⟨d₂, m, q⟩ := y
          rw [hr, after_some] at h
          simp only [Option.some.injEq, Prod.mk.injEq] at h
          obtain ⟨rfl, rfl, rfl⟩ := h
          rw [List.cons_append, desRead_cons_cont hs, ih hr, after_some]
      · rw [List.cons_append, desRead_cons_packet hs, ← h, desRead_cons_packet hs]
      · rw [List.cons_append, desRead_cons_error hs, ← h, desRead_cons_error hs]

/-! ### Runs over the parts of a frame -/

/-- Noise leaves a seeking Deserializer as it is (R103). -/
theorem desRead_noise {z : List Byte} {d : Des} (h : d.stage = .seek) (hz : ∀ b ∈ z, isStart b = false) :
    desRead z d = some (d, z.length, .noPacketYet) := by
  induction z with
  | nil => rfl
  | cons b bs ih =>
    rw [desRead_cons_cont (d' := d) (desStep_seek_noise h (hz b List.mem_cons_self)),
      ih (fun x hx => hz x (List.mem_cons_of_mem _ hx))]
    simp [Nat.add_comm]

/-- The registers after `bs` more payload bytes in stage DATA. -/
def buffered (d : Des) (bs : List Byte) : Des :=
  { d with
    buf := d.buf ++ bs
    cursor := BitVec.ofNat 8 (d.cursor.toNat + bs.length)
    cks := d.cks ^^^ xorAll bs
    stage := if d.cursor.toNat + bs.length = d.len.toNat then .checksum else .data }

/-- Up to the declared length every byte is data (R106). -/
theorem desRead_data {bs : List Byte} {d : Des} (h : d.stage = .data) (hw : Memory.wf d = true)
    (hc : d.cursor.toNat < d.len.toNat) (hl : d.cursor.toNat + bs.length ≤ d.len.toNat) :
    desRead bs d = some (buffered d bs, bs.length, .noPacketYet) := by
  induction bs generalizing d with
  | nil =>
    have hne : ¬ d.cursor.toNat = d.len.toNat := by omega
    obtain ⟨stage, dest, src, len, cursor, cks, buf⟩ := d
    simp_all [desRead_nil, buffered]
  | cons b bs ih =>
    simp only [List.length_cons] at hl
    have hn := toNat_succ_of_lt _ _ hc
    rw [desRead_cons_cont (desStep_data_of_wf h hw hc)]
    simp only [Memory.wf, beq_iff_eq] at hw
    by_cases he : d.cursor.toNat + 1 = d.len.toNat
    · have hnil : bs = [] := List.length_eq_zero_iff.1 (by omega)
      subst hnil
      have hb : isLastAt d.cursor d.len = true := (isLastAt_iff _ _ hc).2 he
      have hcur : d.cursor + 1#8 = BitVec.ofNat 8 (d.cursor.toNat + 1) := by
        rw [← BitVec.toNat_inj, hn, BitVec.toNat_ofNat]
        have := d.len.isLt
        omega
      simp [desRead_nil, buffered, hb, he, hcur, xorAll_cons]
    · have hb : isLastAt d.cursor d.len = false := by
        rw [← Bool.not_eq_true, isLastAt_iff _ _ hc]
        exact he
      rw [ih]
      · simp only [buffered, hn, after_some, Option.some.injEq, Prod.mk.injEq, xorAll_cons, BitVec.xor_assoc,
          List.append_assoc, List.cons_append, List.nil_append, List.length_cons,
          show d.cursor.toNat + 1 + bs.length = d.cursor.toNat + (bs.length + 1) by omega, and_true, true_and]
        omega
      · simp [hb]
      · simp [Memory.wf, hw, hn]
      · simp only [hn]; omega
      · simp only [hn]; omega

/-- The registers when the three header bytes are in. -/
def headed (b0 b1 n : Byte) : Des :=
  { stage := if n = 0#8 then .checksum else .data, dest := low6 b0, src := low6 b1, len := n, cursor := 0#8,
    cks := b0 ^^^ b1 ^^^ n, buf := [] }

/-- The header of anything that starts like a frame (R103 to R105). -/
theorem desRead_header {b0 : Byte} (b1 n : Byte) (h : isStart b0 = true) :
    desRead [b0, b1, n] Des.reset = some (headed b0 b1 n, 3, .noPacketYet) := by
  rw [desRead_cons_cont (desStep_seek_start rfl h), desRead_cons_cont (desStep_sender rfl),
    desRead_cons_cont (desStep_length rfl), desRead_nil]
  rfl

/-- The registers when all but the checksum byte is in. -/
def summed (b0 b1 : Byte) (p : Payload) : Des :=
  { stage := .checksum, dest := low6 b0, src := low6 b1, len := lengthByte p, cursor := lengthByte p,
    cks := xorAll (b0 :: b1 :: lengthByte p :: p.bytes), buf := p.bytes }

/-- A frame up to its checksum byte leaves the Deserializer waiting for it (R14). -/
theorem desRead_body {b0 : Byte} (b1 : Byte) (p : Payload) (h : isStart b0 = true) :
    desRead (b0 :: b1 :: lengthByte p :: p.bytes) Des.reset = some (summed b0 b1 p, 3 + p.bytes.length, .noPacketYet) := by
  have hh := desRead_append_of_none_yet (ys := p.bytes) (desRead_header b1 (lengthByte p) h)
  rw [show [b0, b1, lengthByte p] ++ p.bytes = b0 :: b1 :: lengthByte p :: p.bytes from rfl] at hh
  rw [hh]
  by_cases hz : p.bytes.length = 0
  · have hl := (lengthByte_eq_zero p).2 hz
    have hnil := List.length_eq_zero_iff.1 hz
    rw [hnil, desRead_nil]
    simp [headed, summed, hl, hnil, xorAll_cons]
  · have hl : ¬ lengthByte p = 0#8 := fun e => hz ((lengthByte_eq_zero p).1 e)
    rw [desRead_data]
    · have hlb : BitVec.ofNat 8 p.bytes.length = lengthByte p := rfl
      simp [buffered, headed, summed, xorAll_cons, BitVec.xor_assoc, hlb]
    · simp [headed, hl]
    · simp [headed, Memory.wf]
    · simp only [headed, toNat_lengthByte]
      exact Nat.pos_of_ne_zero hz
    · simp [headed]

/-- A fresh Deserializer on bytes of the shape of a frame and whatever follows them (R107, R109). -/
theorem desRead_shape {b0 : Byte} (b1 c : Byte) (p : Payload) (rest : List Byte) (h : isStart b0 = true) :
    desRead (b0 :: b1 :: lengthByte p :: (p.bytes ++ c :: rest)) Des.reset = some (Des.reset, 4 + p.bytes.length,
      if c = xorAll (b0 :: b1 :: lengthByte p :: p.bytes) then .packet ⟨low6 b0, low6 b1, p⟩ else .error .badCRC) := by
  have hh := desRead_append_of_none_yet (ys := c :: rest) (desRead_body b1 p h)
  rw [show (b0 :: b1 :: lengthByte p :: p.bytes) ++ c :: rest =
    b0 :: b1 :: lengthByte p :: (p.bytes ++ c :: rest) from rfl] at hh
  have hs := desStep_checksum_of_wf (b := c) (d := summed b0 b1 p) p rfl rfl (by simp [summed, Memory.wf])
  rw [hh]
  by_cases hc : c = xorAll (b0 :: b1 :: lengthByte p :: p.bytes)
  · rw [if_pos (show c = (summed b0 b1 p).cks from hc)] at hs
    rw [desRead_cons_packet hs, if_pos hc]
    simp only [after_some, List.length_cons, summed]
    congr 3
    omega
  · rw [if_neg (show ¬ c = (summed b0 b1 p).cks from hc)] at hs
    rw [desRead_cons_error hs, if_neg hc]
    simp only [after_some, List.length_cons]
    congr 3
    omega

/-- DES.READ as the registers' run: the answer of exec is the answer of the run. -/
theorem execDesRead_next {s t : State} {bytes : List Byte} :
    execDesRead bytes s = .next t ↔ ∃ d n o, desRead bytes s.des = some (d, n, o) ∧
      t = ((s.setDes d).consume (bytes.take n)).respond (.read n o) := by
  unfold execDesRead
  cases desRead bytes s.des with
  | none => simp
  | some x => obtain ⟨d, n, o⟩ := x; simp [conclude_next]

theorem execDesRead_of_run {s : State} {bytes : List Byte} {d : Des} {n : Nat} {o : ReadOutcome}
    (h : desRead bytes s.des = some (d, n, o)) :
    execDesRead bytes s = .next (((s.setDes d).consume (bytes.take n)).respond (.read n o)) :=
  execDesRead_next.2 ⟨d, n, o, h, rfl⟩

end Sys2Proof.Machine
end

