-- ==== Sys2Proof/Laws/Exec.lean ====
section
/-! SUPPORT. Everything an operation that answers a next state can have done, said once for all constructors; and how runs of
operations compose. -/

namespace Sys2Proof.Machine

/-- The inversion lemma of exec: a Packet operation only returns; SER.RESET, SER.LOAD and SER.NEXT (or its row) change the
Serializer; DES.RESET, DES.STEP (or its row) and DES.READ change the Deserializer. -/
theorem exec_cases {i : Instr} {s t : State} (h : exec i s = .next t) :
   (i.family = .pkt ∧ ∃ r : Result, r.emitted = [] ∧ r.consumed = 0 ∧ t = s.respond r) ∨
   (i = .serReset ∧ ∃ P, t = ((s.setSer { stage := .done, cks := 0#8, cursor := 0#8, pkt := P }).draw).respond .unit) ∨
   (∃ P, i = .serLoad P ∧ s.ser.stage = .done ∧ t = (s.setSer { stage := .dest, cks := 0#8, cursor := 0#8, pkt := P }).respond .unit) ∨
   ((i = .serNext ∨ i = .serNextDest ∨ i = .serNextSender ∨ i = .serNextLength ∨ i = .serNextData ∨ i = .serNextCrc) ∧
      ∃ r b, serNext s.ser = some (r, b) ∧ t = ((s.setSer r).emit b.toList).respond (.byte b)) ∨
   (i = .desReset ∧ t = (s.setDes Des.reset).respond .unit) ∨
   (i.family = .des ∧ ∃ b d r, desStep b s.des = some (d, r) ∧ t = ((s.setDes d).consume [b]).respond (.step r)) ∨
   (∃ bytes d n o, i = .desRead bytes ∧ desRead bytes s.des = some (d, n, o) ∧
      t = ((s.setDes d).consume (bytes.take n)).respond (.read n o)) := by
  have ser : ∀ {o}, s.concludeSer o = .next t → serNext s.ser = o → ∃ r b, serNext s.ser = some (r, b) ∧ t = ((s.setSer r).emit b.toList).respond (.byte b) := by
    intro o h e; rw [e]; exact concludeSer_next.1 h
  have des : ∀ {b o}, s.concludeDes b o = .next t → desStep b s.des = o → (∃ b d r, desStep b s.des = some (d, r) ∧ t = ((s.setDes d).consume [b]).respond (.step r)) := by
    intro b o h e; obtain ⟨d, r, h1, h2⟩ := concludeDes_next.1 h; exact ⟨b, d, r, e.trans h1, h2⟩
  have row : ∀ {b : Byte} {c : ByteClass}, (if classify s.des.stage b = c then s.concludeDes b (desRow c b s.des) else .refused .rowDoesNotApply) = .next t →
      (∃ b d r, desStep b s.des = some (d, r) ∧ t = ((s.setDes d).consume [b]).respond (.step r)) := by
    intro b c h
    split at h
    · rename_i hc; exact des h (by rw [desStep, hc])
    · cases h
  have srow : ∀ {st : SerStage} {o}, (if s.ser.stage = st then s.concludeSer o else .refused .rowDoesNotApply) = .next t → (s.ser.stage = st → serNext s.ser = o) →
      ∃ r b, serNext s.ser = some (r, b) ∧ t = ((s.setSer r).emit b.toList).respond (.byte b) := by
    intro st o h e
    split at h
    · rename_i hc; exact ser h (e hc)
    · cases h
  cases i with
  | pktConstruct a b p => exact .inl ⟨rfl, _, rfl, rfl, conclude_next.1 h⟩
  | pktDest P => exact .inl ⟨rfl, _, rfl, rfl, conclude_next.1 h⟩
  | pktSrc P => exact .inl ⟨rfl, _, rfl, rfl, conclude_next.1 h⟩
  | pktPayload P => exact .inl ⟨rfl, _, rfl, rfl, conclude_next.1 h⟩
  | serReset => exact .inr (.inl ⟨rfl, _, conclude_next.1 h⟩)
  | serLoad P =>
    simp only [exec, execSerLoad] at h
    split at h
    · rename_i hs; exact .inr (.inr (.inl ⟨P, rfl, hs, conclude_next.1 h⟩))
    · cases h
  | serNext => exact .inr (.inr (.inr (.inl ⟨by simp, ser h rfl⟩)))
  | serNextDest => exact .inr (.inr (.inr (.inl ⟨by simp, srow h serNext_of_dest⟩)))
  | serNextSender => exact .inr (.inr (.inr (.inl ⟨by simp, srow h serNext_of_sender⟩)))
  | serNextLength => exact .inr (.inr (.inr (.inl ⟨by simp, srow h serNext_of_length⟩)))
  | serNextData => exact .inr (.inr (.inr (.inl ⟨by simp, srow h serNext_of_data⟩)))
  | serNextCrc => exact .inr (.inr (.inr (.inl ⟨by simp, srow h serNext_of_crc⟩)))
  | desReset => exact .inr (.inr (.inr (.inr (.inl ⟨rfl, conclude_next.1 h⟩))))
  | desStep b => exact .inr (.inr (.inr (.inr (.inr (.inl ⟨rfl, des h rfl⟩)))))
  | desRead bytes =>
    obtain ⟨d, n, o, h1, h2⟩ := execDesRead_next.1 h
    exact .inr (.inr (.inr (.inr (.inr (.inr ⟨bytes, d, n, o, rfl, h1, h2⟩)))))
  | desSeekAccept b => exact .inr (.inr (.inr (.inr (.inr (.inl ⟨rfl, row h⟩)))))
  | desSeekDiscard b => exact .inr (.inr (.inr (.inr (.inr (.inl ⟨rfl, row h⟩)))))
  | desSender b => exact .inr (.inr (.inr (.inr (.inr (.inl ⟨rfl, row h⟩)))))
  | desLengthZero => exact .inr (.inr (.inr (.inr (.inr (.inl ⟨rfl, row h⟩)))))
  | desLengthNonzero b => exact .inr (.inr (.inr (.inr (.inr (.inl ⟨rfl, row h⟩)))))
  | desData b => exact .inr (.inr (.inr (.inr (.inr (.inl ⟨rfl, row h⟩)))))
  | desChecksum b => exact .inr (.inr (.inr (.inr (.inr (.inl ⟨rfl, row h⟩)))))

/-- A run of two parts is the second after the first. -/
theorem runOps_append (xs ys : List Instr) (s : State) :
   runOps (xs ++ ys) s = match runOps xs s with | .next t => runOps ys t | .fault f => .fault f | .refused r => .refused r := by
  induction xs generalizing s with
  | nil => rfl
  | cons i is ih =>
    simp only [List.cons_append, runOps]
    cases h : exec i s with
    | next t => exact ih t
    | fault f => rfl
    | refused r => rfl

/-- One read more than a drain needs changes nothing. -/
theorem drain_mono {n : Nat} {bytes : List Byte} {s : State} {r} (h : drain n bytes s = some r) : drain (n+1) bytes s = some r := by
  induction n generalizing bytes s r with
  | zero => cases bytes with
    | nil => simpa [drain] using h
    | cons b bs => simp [drain] at h
  | succ n ih => cases bytes with
    | nil => simpa [drain] using h
    | cons b bs =>
      rw [drain] at h ⊢
      split at h
      · rename_i k o t hi
        obtain ⟨x, hx, rfl⟩ := Option.map_eq_some_iff.1 h
        simp only [ih hx, Option.map_some]
      · cases h
      · cases h

/-- More reads than a drain needs change nothing. -/
theorem drain_le {n m : Nat} {bytes : List Byte} {s : State} {r} (hnm : n ≤ m) (h : drain n bytes s = some r) : drain m bytes s = some r := by
  induction hnm with
  | refl => exact h
  | step _ ih => exact drain_mono ih

end Sys2Proof.Machine
end

