-- ==== Sys2Proof/Laws/Invariant.lean ====
section
/-! SUPPORT. The store discipline and the register invariants (R13, R14, R22) under one step of each unit, and that where they
hold a step always answers (R112). -/

namespace Sys2Proof.Machine

/-- With the store discipline and the cursor below the length in DATA, every byte has an answer (R112). -/
theorem desStep_total {d : Des} (b : Byte) (hw : Memory.wf d = true) (hc : d.stage = .data → d.cursor.toNat < d.len.toNat) :
   ∃ d' r, desStep b d = some (d', r) := by
  cases h : d.stage
  · cases hb : isStart b
    · exact ⟨_, _, desStep_seek_noise h hb⟩
    · exact ⟨_, _, desStep_seek_start h hb⟩
  · exact ⟨_, _, desStep_sender h⟩
  · exact ⟨_, _, desStep_length h⟩
  · exact ⟨_, _, desStep_data_of_wf h hw (hc h)⟩
  · obtain ⟨p, hp⟩ := exists_payload_of_wf hw
    exact ⟨_, _, desStep_checksum_of_wf p h hp hw⟩

/-- The cursor column of the table of R14, and the store discipline of R22. -/
structure Regular (d : Des) : Prop where
  wf : Memory.wf d = true
  zero : d.stage ≠ .data → d.stage ≠ .checksum → d.cursor = 0#8
  lt : d.stage = .data → d.cursor.toNat < d.len.toNat

theorem regular_reset : Regular Des.reset := ⟨rfl, fun _ _ => rfl, by simp [Des.reset]⟩

/-- DES.STEP keeps the store discipline and the cursor column of R14. -/
theorem desStep_regular {d d' : Des} {b : Byte} {r : StepResult} (h : Regular d) (e : desStep b d = some (d', r)) : Regular d' := by
  obtain ⟨hw, h0, hl⟩ := h
  have hw' := hw
  simp only [Memory.wf, beq_iff_eq] at hw'
  cases hs : d.stage
  · have h0 := h0 (by simp [hs]) (by simp [hs])
    cases hb : isStart b
    · rw [desStep_seek_noise hs hb] at e
      simp only [continuing, Option.some.injEq, Prod.mk.injEq] at e
      rw [← e.1]; exact ⟨hw, fun _ _ => h0, hl⟩
    · rw [desStep_seek_start hs hb] at e
      simp only [continuing, Option.some.injEq, Prod.mk.injEq] at e
      rw [← e.1]; exact ⟨hw, fun _ _ => h0, by simp [desSeekAccept]⟩
  · have h0 := h0 (by simp [hs]) (by simp [hs])
    rw [desStep_sender hs] at e
    simp only [continuing, Option.some.injEq, Prod.mk.injEq] at e
    rw [← e.1]; exact ⟨hw, fun _ _ => h0, by simp [desSender]⟩
  · have h0 := h0 (by simp [hs]) (by simp [hs])
    rw [desStep_length hs] at e
    simp only [continuing, Option.some.injEq, Prod.mk.injEq] at e
    rw [← e.1]; refine ⟨hw, fun _ _ => h0, ?_⟩
    by_cases hb : b = 0#8
    · simp [hb]
    · intro _
      simp only [h0]
      exact Nat.pos_of_ne_zero (fun hz => hb (by rw [← BitVec.toNat_inj]; simpa using hz))
  · have hl := hl hs
    rw [desStep_data_of_wf hs hw hl] at e
    simp only [continuing, Option.some.injEq, Prod.mk.injEq] at e
    have hn := toNat_succ_of_lt _ _ hl
    rw [← e.1]
    refine ⟨by simp [Memory.wf, hw', hn], ?_, ?_⟩
    · intro a c; exfalso; simp only at a c; split at a <;> simp_all
    · simp only [hn]
      intro a
      have : isLastAt d.cursor d.len = false := by cases h : isLastAt d.cursor d.len <;> simp_all
      rw [← Bool.not_eq_true, isLastAt_iff _ _ hl] at this
      omega
  · obtain ⟨p, hp⟩ := exists_payload_of_wf hw
    rw [desStep_checksum_of_wf p hs hp hw] at e
    simp only [Option.some.injEq, Prod.mk.injEq] at e
    rw [← e.1]; exact regular_reset

/-- DES.READ answers on every finite input (R112). -/
theorem desRead_total {d : Des} (bytes : List Byte) (h : Regular d) : ∃ d' n o, desRead bytes d = some (d', n, o) := by
  induction bytes generalizing d with
  | nil => exact ⟨_, _, _, desRead_nil d⟩
  | cons b bs ih =>
    obtain ⟨d', r, e⟩ := desStep_total b h.wf h.lt
    have h' := desStep_regular h e
    obtain rfl | ⟨rfl, -, ⟨P, rfl⟩ | rfl⟩ := desStep_result e
    · obtain ⟨d₂, n, o, e2⟩ := ih h'
      exact ⟨_, _, _, by rw [desRead_cons_cont e, e2]; rfl⟩
    · exact ⟨_, _, _, desRead_cons_packet e⟩
    · exact ⟨_, _, _, desRead_cons_error e⟩

/-- The invariants of R14 give the cursor column of its table. -/
theorem regular_of_inv {d : Des} {inp : List Byte} (h : d.Inv inp) : Regular d := by
  unfold Des.Inv at h
  split at h <;> rename_i hs
  · rw [h]; exact regular_reset
  · exact ⟨by simp [Memory.wf, h.1, h.2.2.1], fun _ _ => h.1, by simp [hs]⟩
  · exact ⟨by simp [Memory.wf, h.1, h.2.2.1], fun _ _ => h.1, by simp [hs]⟩
  · exact ⟨h.2.1, fun a _ => absurd hs a, fun _ => h.1⟩
  · exact ⟨h.2.1, fun _ a => absurd hs a, by simp [hs]⟩

theorem low6_zero : low6 0#8 = 0#6 := by decide

theorem suffix_snoc {a b : List Byte} (h : a <:+ b) (x : Byte) : a ++ [x] <:+ b ++ [x] := by
  obtain ⟨t, rfl⟩ := h
  exact ⟨t, by simp⟩

/-- DES.STEP keeps the invariants of R14. -/
theorem desStep_inv {d d' : Des} {b : Byte} {r : StepResult} {inp : List Byte} (h : d.Inv inp) (e : desStep b d = some (d', r)) : d'.Inv (inp ++ [b]) := by
  have hreg := regular_of_inv h
  have hreg' := desStep_regular hreg e
  unfold Des.Inv at h
  split at h <;> rename_i hs
  · cases hb : isStart b
    · rw [desStep_seek_noise hs hb] at e
      simp only [continuing, Option.some.injEq, Prod.mk.injEq] at e
      rw [← e.1]; simp only [Des.Inv, hs]; exact h
    · rw [desStep_seek_start hs hb] at e
      simp only [continuing, Option.some.injEq, Prod.mk.injEq] at e
      rw [← e.1, h]
      simp only [Des.Inv, desSeekAccept]
      exact ⟨rfl, rfl, rfl, b, List.suffix_append _ _, hb, rfl, low6_zero.symm, by simp [xorAll_cons]⟩
  · obtain ⟨hc, hl, hbuf, b0, hsuf, hst, hd, hsr, hx⟩ := h
    rw [desStep_sender hs] at e
    simp only [continuing, Option.some.injEq, Prod.mk.injEq] at e
    rw [← e.1]
    simp only [Des.Inv, desSender]
    refine ⟨hc, hl, hbuf, b0, b, suffix_snoc hsuf b, hst, hd, rfl, ?_⟩
    simp [hx, xorAll_cons]
  · obtain ⟨hc, hl, hbuf, b0, b1, hsuf, hst, hd, hsr, hx⟩ := h
    rw [desStep_length hs] at e
    simp only [continuing, Option.some.injEq, Prod.mk.injEq] at e
    rw [← e.1] at hreg' ⊢
    have hgot : ∀ st, Des.Got (inp ++ [b]) { d with len := b, cks := d.cks ^^^ b, stage := st } b0 b1 (b0 :: b1 :: b :: d.buf) := by
      intro st
      refine ⟨?_, hst, hd, hsr, ?_⟩
      · rw [hbuf]; exact suffix_snoc hsuf b
      · simp [hx, hbuf, xorAll_cons, BitVec.xor_assoc]
    by_cases hb : b = 0#8
    · simp only [hb, if_true, Des.Inv]
      simp only [hb] at hgot
      exact ⟨hc, hreg.wf, b0, b1, hgot _⟩
    · simp only [hb, if_false, Des.Inv] at hreg' ⊢
      exact ⟨hreg'.lt rfl, hreg.wf, b0, b1, hgot _⟩
  · obtain ⟨hc, hw, b0, b1, hsuf, hst, hd, hsr, hx⟩ := h
    rw [desStep_data_of_wf hs hw hc] at e
    simp only [continuing, Option.some.injEq, Prod.mk.injEq] at e
    rw [← e.1] at hreg' ⊢
    have hgot : ∀ st, Des.Got (inp ++ [b]) { d with buf := d.buf ++ [b], cursor := d.cursor + 1#8, cks := d.cks ^^^ b, stage := st } b0 b1 (b0 :: b1 :: d.len :: (d.buf ++ [b])) := by
      intro st
      refine ⟨suffix_snoc hsuf b, hst, hd, hsr, ?_⟩
      rw [show b0 :: b1 :: d.len :: (d.buf ++ [b]) = (b0 :: b1 :: d.len :: d.buf) ++ [b] from rfl, xorAll_snoc, ← hx]
    cases hb : isLastAt d.cursor d.len
    · simp only [hb, Bool.false_eq_true, if_false, Des.Inv] at hreg' ⊢
      exact ⟨hreg'.lt rfl, hreg'.wf, b0, b1, hgot _⟩
    · simp only [hb, if_true, Des.Inv] at hreg' ⊢
      exact ⟨by simpa [isLastAt] using hb, hreg'.wf, b0, b1, hgot _⟩
  · obtain ⟨hc, hw, -⟩ := h
    obtain ⟨p, hp⟩ := exists_payload_of_wf hw
    rw [desStep_checksum_of_wf p hs hp hw] at e
    simp only [Option.some.injEq, Prod.mk.injEq] at e
    rw [← e.1]; rfl

/-- So does DES.READ. -/
theorem desRead_inv {bytes : List Byte} {d d' : Des} {n : Nat} {o : ReadOutcome} {inp : List Byte} (h : d.Inv inp)
   (e : desRead bytes d = some (d', n, o)) : d'.Inv (inp ++ bytes.take n) := by
  induction bytes generalizing d inp n with
  | nil =>
    simp only [desRead_nil, Option.some.injEq, Prod.mk.injEq] at e
    rw [← e.1]; simpa using h
  | cons b bs ih =>
    cases hs : desStep b d with
    | none => rw [desRead_cons_none hs] at e; cases e
    | some x =>
      obtain ⟨d₁, r⟩ := x
      have h1 := desStep_inv h hs
      obtain rfl | ⟨-, -, ⟨P, rfl⟩ | rfl⟩ := desStep_result hs
      · rw [desRead_cons_cont hs] at e
        cases hr : desRead bs d₁ with
        | none => rw [hr] at e; cases e
        | some y =>
          obtain ⟨d₂, m, q⟩ := y
          rw [hr, after_some] at e
          simp only [Option.some.injEq, Prod.mk.injEq] at e
          obtain ⟨rfl, rfl, rfl⟩ := e
          have := ih h1 hr
          rwa [List.append_assoc, List.singleton_append, ← List.take_succ_cons, Nat.add_comm] at this
      · rw [desRead_cons_packet hs] at e
        simp only [Option.some.injEq, Prod.mk.injEq] at e
        obtain ⟨rfl, rfl, -⟩ := e; exact h1
      · rw [desRead_cons_error hs] at e
        simp only [Option.some.injEq, Prod.mk.injEq] at e
        obtain ⟨rfl, rfl, -⟩ := e; exact h1

/-- SER.NEXT keeps the invariants of R13. -/
theorem serNext_inv {r r' : Ser} {b : Option Byte} {out : List Byte} (h : r.Inv out) (e : serNext r = some (r', b)) : r'.Inv (out ++ b.toList) := by
  obtain ⟨hs, hc, hk⟩ | ⟨k, ha, hsuf⟩ := at_of_inv h
  · rw [serNext_done hs] at e
    simp only [Option.some.injEq, Prod.mk.injEq] at e
    obtain ⟨rfl, rfl⟩ := e
    simpa using h
  · by_cases hk : k < 4 + r.pkt.len
    · obtain ⟨r₂, b₂, hb, hn, ha'⟩ := serNext_at ha hk
      rw [hn] at e
      simp only [Option.some.injEq, Prod.mk.injEq] at e
      obtain ⟨rfl, rfl⟩ := e
      refine inv_of_at ha' ?_
      rw [take_succ_of_get hb]
      exact suffix_snoc hsuf b₂
    · have hd : r.stage = .done := by
        obtain ⟨-, -, ⟨h, -⟩ | ⟨h, -⟩ | ⟨h, -⟩ | ⟨h, h', -⟩ | ⟨h, -⟩ | ⟨h, hs, hl⟩⟩ := ha <;> first | exact hs | omega
      rw [serNext_done hd] at e
      simp only [Option.some.injEq, Prod.mk.injEq] at e
      obtain ⟨rfl, rfl⟩ := e
      simpa using h

/-- Where they hold SER.NEXT answers. -/
theorem serNext_total {r : Ser} {out : List Byte} (h : r.Inv out) : ∃ r' b, serNext r = some (r', b) := by
  obtain ⟨hs, -⟩ | ⟨k, ha, -⟩ := at_of_inv h
  · exact ⟨_, _, serNext_done hs⟩
  · by_cases hk : k < 4 + r.pkt.len
    · obtain ⟨r₂, b₂, hb, hn, ha'⟩ := serNext_at ha hk
      exact ⟨_, _, hn⟩
    · have hd : r.stage = .done := by
        obtain ⟨-, -, ⟨h, -⟩ | ⟨h, -⟩ | ⟨h, -⟩ | ⟨h, h', -⟩ | ⟨h, -⟩ | ⟨h, hs, hl⟩⟩ := ha <;> first | exact hs | omega
      exact ⟨_, _, serNext_done hd⟩

end Sys2Proof.Machine
end

