-- ==== Sys2Proof/Laws/PerInstr.lean ====
section
/-! SUPPORT. Families of facts about every constructor, one lemma each (LAWS.json). EncodingIsNonempty: a request has at
least its first byte, so a queue of requests shrinks by every request read. -/

namespace Sys2Proof.Laws.EncodingIsNonempty

def Statement (i : Instr) : Prop := encode i ≠ []

theorem pktConstruct (dest src : Byte) (payload : Payload) : Statement (.pktConstruct dest src payload) :=
  List.cons_ne_nil _ _
theorem pktDest (P : Packet) : Statement (.pktDest P) := List.cons_ne_nil _ _
theorem pktSrc (P : Packet) : Statement (.pktSrc P) := List.cons_ne_nil _ _
theorem pktPayload (P : Packet) : Statement (.pktPayload P) := List.cons_ne_nil _ _
theorem serReset : Statement .serReset := List.cons_ne_nil _ _
theorem serLoad (P : Packet) : Statement (.serLoad P) := List.cons_ne_nil _ _
theorem serNext : Statement .serNext := List.cons_ne_nil _ _
theorem desReset : Statement .desReset := List.cons_ne_nil _ _
theorem desStep (b : Byte) : Statement (.desStep b) := List.cons_ne_nil _ _
theorem desRead (bytes : List Byte) : Statement (.desRead bytes) := List.cons_ne_nil _ _
theorem serNextDest : Statement .serNextDest := List.cons_ne_nil _ _
theorem serNextSender : Statement .serNextSender := List.cons_ne_nil _ _
theorem serNextLength : Statement .serNextLength := List.cons_ne_nil _ _
theorem serNextData : Statement .serNextData := List.cons_ne_nil _ _
theorem serNextCrc : Statement .serNextCrc := List.cons_ne_nil _ _
theorem desSeekAccept (b : Byte) : Statement (.desSeekAccept b) := List.cons_ne_nil _ _
theorem desSeekDiscard (b : Byte) : Statement (.desSeekDiscard b) := by
  simp only [Statement, encode]
  split <;> exact List.cons_ne_nil _ _
theorem desSender (b : Byte) : Statement (.desSender b) := List.cons_ne_nil _ _
theorem desLengthZero : Statement .desLengthZero := List.cons_ne_nil _ _
theorem desLengthNonzero (b : Byte) : Statement (.desLengthNonzero b) := List.cons_ne_nil _ _
theorem desData (b : Byte) : Statement (.desData b) := List.cons_ne_nil _ _
theorem desChecksum (b : Byte) : Statement (.desChecksum b) := List.cons_ne_nil _ _

end Sys2Proof.Laws.EncodingIsNonempty
end

