-- ==== Sys2Proof/Tests/Slice0.lean ====
section
/-! SUPPORT. Tests: the well-formedness checks refuse ill-formed terms; every constructor is decoded from a word written out
by hand; single steps against the spec's worked examples and vectors (95_test_vectors.md, V<n>); and a witness for the
hypotheses of every statement that has some. -/

namespace Sys2Proof.Tests

open Sys2Proof.Machine

/-- The state an outcome goes on from. -/
def answer : Host.Outcome State Fault Refusal → Option State
  | .next s => some s
  | .fault _ => none
  | .refused _ => none

/-- The last result an outcome returns to the host. -/
def returned (o : Host.Outcome State Fault Refusal) : Option Result := (answer o).bind (fun s => s.results.getLast?)

/-- The refusal an outcome is. -/
def refusal : Host.Outcome State Fault Refusal → Option Refusal
  | .next _ => none
  | .fault _ => none
  | .refused r => some r

/-- A payload of three bytes, a packet with it (V11), and the packet of V1. -/
def p123 : Payload := ⟨[0x01#8, 0x02#8, 0x03#8], by decide⟩
def packet11 : Packet := ⟨5#6, 9#6, p123⟩
def packet1 : Packet := ⟨3#6, 0x32#6, ⟨[], by decide⟩⟩

/-- A small state with the Serializer or the Deserializer where a test needs it. -/
def withSer (stage : SerStage) (cursor cks : Byte) (P : Packet) : State :=
  { State.reset with ser := { stage := stage, cks := cks, cursor := cursor, pkt := P } }
def withDes (stage : DesStage) (len cursor cks : Byte) (buf : List Byte) : State :=
  { State.reset with
    des := { stage := stage, dest := 5#6, src := 9#6, len := len, cursor := cursor, cks := cks, buf := buf } }

/-! ### Well-formedness: an ill-formed term for each check -/

theorem test_wf_refuses_accept_of_noise : (Instr.desSeekAccept 0xC3#8).wf = false := by decide
theorem test_wf_refuses_discard_of_start : (Instr.desSeekDiscard 0x83#8).wf = false := by decide
theorem test_wf_refuses_nonzero_of_zero : (Instr.desLengthNonzero 0x00#8).wf = false := by decide

/-! ### Decoding: operation numbers of R63, row patterns of R54, operands in the order of R58 (log 1) -/

/-- What a byte sequence is decoded to, if all of it is one request. -/
def whole (bs : List Byte) : Option Instr :=
  match decode bs with
  | .ok (i, []) => some i
  | .ok (_, _ :: _) => none
  | .error _ => none

/-- Why a byte sequence is no request. -/
def rejection (bs : List Byte) : Option DecodeError :=
  match decode bs with
  | .ok _ => none
  | .error e => some e

theorem test_decode_pktConstruct :
    whole [0b00000000#8, 0x05#8, 0x09#8, 0x03#8, 0x01#8, 0x02#8, 0x03#8] = some (.pktConstruct 5#8 9#8 p123) := by decide
theorem test_decode_pktDest : whole [0b00000001#8, 0x03#8, 0x32#8, 0x00#8] = some (.pktDest packet1) := by decide
theorem test_decode_pktSrc : whole [0b00000010#8, 0x03#8, 0x32#8, 0x00#8] = some (.pktSrc packet1) := by decide
theorem test_decode_pktPayload : whole [0b00000011#8, 0x03#8, 0x32#8, 0x00#8] = some (.pktPayload packet1) := by decide
theorem test_decode_serReset : whole [0b00000100#8] = some .serReset := by decide
theorem test_decode_serLoad :
    whole [0b00000101#8, 0x05#8, 0x09#8, 0x03#8, 0x01#8, 0x02#8, 0x03#8] = some (.serLoad packet11) := by decide
theorem test_decode_serNext : whole [0b00000110#8] = some .serNext := by decide
theorem test_decode_desReset : whole [0b00000111#8] = some .desReset := by decide
theorem test_decode_desStep : whole [0b00001000#8, 0x83#8] = some (.desStep 0x83#8) := by decide
theorem test_decode_desRead :
    whole [0b00001001#8, 0x01#8, 0x83#8, 0x01#8, 0x32#8, 0x00#8] = some (.desRead [0x83#8, 0x32#8]) := by decide
theorem test_decode_serNextDest : whole [0x10#8] = some .serNextDest := by decide
theorem test_decode_serNextSender : whole [0x11#8] = some .serNextSender := by decide
theorem test_decode_serNextLength : whole [0x12#8] = some .serNextLength := by decide
theorem test_decode_serNextData : whole [0x13#8] = some .serNextData := by decide
theorem test_decode_serNextCrc : whole [0x14#8] = some .serNextCrc := by decide
theorem test_decode_desSeekAccept : whole [0b10000011#8] = some (.desSeekAccept 0x83#8) := by decide
theorem test_decode_desSeekDiscard_high : whole [0b11000011#8] = some (.desSeekDiscard 0xC3#8) := by decide
theorem test_decode_desSeekDiscard_low : whole [0x21#8, 0b01111111#8] = some (.desSeekDiscard 0x7F#8) := by decide
theorem test_decode_desSender : whole [0x22#8, 0b11110010#8] = some (.desSender 0xF2#8) := by decide
theorem test_decode_desLengthZero : whole [0x23#8] = some .desLengthZero := by decide
theorem test_decode_desLengthNonzero : whole [0x24#8, 0x03#8] = some (.desLengthNonzero 0x03#8) := by decide
theorem test_decode_desData : whole [0x25#8, 0xBF#8] = some (.desData 0xBF#8) := by decide
theorem test_decode_desChecksum : whole [0x26#8, 0xB1#8] = some (.desChecksum 0xB1#8) := by decide
theorem test_reject_unassigned_number : rejection [0b00001111#8] = some .unassignedOperation := by decide
theorem test_reject_unassigned_selector : rejection [0x20#8] = some .unassignedSelector := by decide
theorem test_reject_wide_address : rejection [0x05#8, 0x40#8, 0x00#8, 0x00#8] = some .addressTooWide := by decide
theorem test_reject_short_payload : rejection [0x00#8, 0x00#8, 0x00#8, 0x01#8] = some .truncated := by decide
theorem test_reject_zero_as_nonzero : rejection [0x24#8, 0x00#8] = some .outsideRowPattern := by decide
theorem test_reject_bad_flag : rejection [0x09#8, 0x02#8, 0x00#8] = some .badSequenceFlag := by decide

/-! ### Single steps -/

/-- V3 and V6. -/
theorem test_construct_largest : returned (exec (.pktConstruct 63#8 63#8 ⟨[], by decide⟩) State.reset) =
    some (.construct (.packet ⟨63#6, 63#6, ⟨[], by decide⟩⟩)) := by decide
theorem test_construct_both_bad : returned (exec (.pktConstruct 64#8 64#8 ⟨[], by decide⟩) State.reset) =
    some (.construct (.error .destinationAddressOutOfRange)) := by decide

/-- V8. -/
theorem test_pktDest : returned (exec (.pktDest packet11) State.reset) = some (.addr 5#6) := by decide
theorem test_pktSrc : returned (exec (.pktSrc packet11) State.reset) = some (.addr 9#6) := by decide
theorem test_pktPayload : returned (exec (.pktPayload packet11) State.reset) = some (.payload p123) := by decide

/-- V16b: SER.RESET in the middle of a frame. -/
theorem test_serReset_mid_frame :
    (answer (exec .serReset (withSer .sender 0#8 0x85#8 packet11))).map (fun s => (s.ser.stage, s.ser.cks)) =
      some (.done, 0#8) := by decide

/-- V11, the row of SER.LOAD; V16a. -/
theorem test_serLoad : (answer (exec (.serLoad packet11) State.reset)).map (fun s => s.ser) =
    some { stage := .dest, cks := 0#8, cursor := 0#8, pkt := packet11 } := by decide
theorem test_serLoad_while_busy : answer (exec (.serLoad packet1) (withSer .sender 0#8 0x85#8 packet11)) = none := by decide

/-- V11: the last payload byte; V16d: an empty payload skips DATA. -/
theorem test_serNext_last_payload_byte :
    (answer (exec .serNext (withSer .data 2#8 0x8C#8 packet11))).map (fun s => (s.results, s.ser.stage, s.ser.cursor, s.ser.cks)) =
      some ([.byte (some 0x03#8)], .crc, 3#8, 0x8F#8) := by decide
theorem test_serNext_empty_payload :
    (answer (exec .serNext (withSer .length 0#8 0xB1#8 packet1))).map (fun s => (s.results, s.ser.stage, s.ser.cks)) =
      some ([.byte (some 0x00#8)], .crc, 0xB1#8) := by decide

/-- V11, stage by stage. -/
theorem test_serNextDest : returned (exec .serNextDest (withSer .dest 0#8 0#8 packet11)) = some (.byte (some 0x85#8)) := by decide
theorem test_serNextSender :
    (answer (exec .serNextSender (withSer .sender 0#8 0x85#8 packet11))).map (fun s => (s.outStream, s.ser.cks)) =
      some ([0x09#8], 0x8C#8) := by decide
theorem test_serNextLength :
    (answer (exec .serNextLength (withSer .length 0#8 0x8C#8 packet11))).map (fun s => (s.outStream, s.ser.stage, s.ser.cks)) =
      some ([0x03#8], .data, 0x8F#8) := by decide
theorem test_serNextData :
    (answer (exec .serNextData (withSer .data 0#8 0x8F#8 packet11))).map (fun s => (s.outStream, s.ser.cursor, s.ser.cks)) =
      some ([0x01#8], 1#8, 0x8E#8) := by decide
theorem test_serNextCrc :
    (answer (exec .serNextCrc (withSer .crc 3#8 0x8F#8 packet11))).map (fun s => (s.outStream, s.ser.stage, s.ser.cks)) =
      some ([0x8F#8], .done, 0x8F#8) := by decide

/-- V36: DES.RESET drops a partial frame. -/
theorem test_desReset : (answer (exec .desReset (withDes .data 3#8 1#8 0x8E#8 [0x01#8]))).map (fun s => (s.des, s.results)) =
    some (Des.reset, [.unit]) := by decide

/-- V11's frame: the byte that fills the buffer, and the checksum byte. -/
theorem test_desStep_fills_buffer :
    (answer (exec (.desStep 0x03#8) (withDes .data 3#8 2#8 0x8C#8 [0x01#8, 0x02#8]))).map (fun s => s.des) =
      some (withDes .checksum 3#8 3#8 0x8F#8 [0x01#8, 0x02#8, 0x03#8]).des := by decide
theorem test_desStep_delivers :
    (answer (exec (.desStep 0x8F#8) (withDes .checksum 3#8 3#8 0x8F#8 [0x01#8, 0x02#8, 0x03#8]))).map (fun s => (s.results, s.des)) =
      some ([.step (.packet packet11)], Des.reset) := by decide

/-- V26 and V35. -/
theorem test_desRead_wrong_length :
    (answer (exec (.desRead [0x81#8, 0x02#8, 0x00#8, 0x83#8, 0x01#8]) State.reset)).map (fun s => (s.results, s.inStream)) =
      some ([.read 4 (.packet ⟨1#6, 2#6, ⟨[], by decide⟩⟩)], [0x81#8, 0x02#8, 0x00#8, 0x83#8]) := by decide
theorem test_desRead_swallowed :
    (answer (exec (.desRead [0x90#8, 0x83#8, 0x32#8, 0x00#8, 0xB1#8]) State.reset)).map (fun s => (s.results, s.des)) =
      some ([.read 5 .noPacketYet], { stage := .data, dest := 0x10#6, src := 0x03#6, len := 50#8, cursor := 2#8, cks := 0x90#8, buf := [0x00#8, 0xB1#8] }) := by decide

/-- V11's frame, row by row; V27 for the reserved bits of the sender byte; V32 for a bad checksum. -/
theorem test_desSeekAccept : (answer (exec (.desSeekAccept 0x85#8) State.reset)).map (fun s => s.des) =
    some { Des.reset with stage := .sender, dest := 5#6, cks := 0x85#8 } := by decide
theorem test_desSeekDiscard : (answer (exec (.desSeekDiscard 0xC3#8) State.reset)).map (fun s => (s.des, s.results)) =
    some (Des.reset, [.step .cont]) := by decide
theorem test_desSender : (answer (exec (.desSender 0xF2#8) (withDes .sender 0#8 0#8 0x83#8 []))).map (fun s => (s.des.src, s.des.cks)) =
    some (0x32#6, 0x71#8) := by decide
theorem test_desLengthZero : (answer (exec .desLengthZero (withDes .length 0#8 0#8 0xB1#8 []))).map (fun s => (s.des.stage, s.des.cks)) =
    some (.checksum, 0xB1#8) := by decide
theorem test_desLengthNonzero :
    (answer (exec (.desLengthNonzero 0x03#8) (withDes .length 0#8 0#8 0x8C#8 []))).map (fun s => (s.des.stage, s.des.len, s.des.cks)) =
      some (.data, 3#8, 0x8F#8) := by decide
theorem test_desData : (answer (exec (.desData 0x01#8) (withDes .data 3#8 0#8 0x8F#8 []))).map (fun s => s.des) =
    some (withDes .data 3#8 1#8 0x8E#8 [0x01#8]).des := by decide
theorem test_desChecksum_bad : (answer (exec (.desChecksum 0xB0#8) (withDes .checksum 0#8 0#8 0xB1#8 []))).map (fun s => (s.results, s.des)) =
    some ([.step (.error .badCRC)], Des.reset) := by decide

/-- A table word placed before the step is what the step runs, and nothing of it is left. -/
theorem test_step_runs_table_word : (answer (step (State.reset.withFetchWord 8 0x06))).map (fun s => (s.results, s.requests)) =
    some ([.byte none], []) := by decide
theorem test_step_runs_table_word_with_zero_operands :
    (answer (step (State.reset.withFetchWord 8 0x05))).map (fun s => (s.ser, s.requests)) =
      some ({ stage := .dest, cks := 0#8, cursor := 0#8, pkt := ⟨0#6, 0#6, ⟨[], by decide⟩⟩ }, []) := by decide

/-- V9, V12 and V13: frames written out in the spec. -/
theorem test_frame_empty : frame ⟨0#6, 0#6, ⟨[], by decide⟩⟩ = [0x80#8, 0x00#8, 0x00#8, 0x80#8] := by decide
theorem test_frame_one_byte : frame ⟨0x2A#6, 0x15#6, ⟨[0xFF#8], by decide⟩⟩ = [0xAA#8, 0x15#8, 0x01#8, 0xFF#8, 0x41#8] := by
  decide

/-! ### Witnesses: for every statement with hypotheses, a state and operands that meet all of them -/

theorem witness_PktConstructErrorLeavesNothingBehind :
    (63 < (64#8 : Byte).toNat ∨ 63 < (0#8 : Byte).toNat) ∧ (63 < (63#8 : Byte).toNat ∨ 63 < (64#8 : Byte).toNat) := by decide
theorem witness_BoundaryLengthsAndAddresses :
    packet1.len = 0 ∧ (∃ P : Packet, P.len = 255) ∧ (63#8 : Byte).toNat ≤ 63 :=
  ⟨rfl, ⟨⟨1#6, 1#6, ⟨List.replicate 255 0xAA#8, Nat.le_of_eq List.length_replicate⟩⟩, List.length_replicate⟩, by decide⟩
theorem witness_FrameBytesAssembled : packet1.len = 0 ∧ (0 < packet11.len ∧ packet11.len - 1 < packet11.len) := by decide
theorem witness_FrameXorsToZeroAndIsInjective : frame packet11 = frame ⟨packet11.dest, packet11.src, packet11.payload⟩ := rfl
theorem witness_SerLoadStartsFrame : State.reset.ser.stage = .done := rfl
theorem witness_SerLoadRefusedUnlessDone : (withSer .sender 0#8 0x85#8 packet11).ser.stage ≠ .done := by decide
theorem witness_SerNextEmitsDestinationByte : (withSer .dest 0#8 0#8 packet11).ser.stage = .dest := rfl
theorem witness_SerNextEmitsSenderByte : (withSer .sender 0#8 0x85#8 packet11).ser.stage = .sender := rfl
theorem witness_SerNextEmitsLengthByte : (withSer .length 0#8 0x8C#8 packet11).ser.stage = .length := rfl
theorem witness_SerNextEmitsPayloadByte :
    (withSer .data 2#8 0x8C#8 packet11).ser.stage = .data ∧ packet11.payload.bytes[(2#8 : Byte).toNat]? = some 0x03#8 := by decide
theorem witness_SerNextEmitsChecksumByte : (withSer .crc 3#8 0x8F#8 packet11).ser.stage = .crc := rfl
theorem witness_SerNextInDoneReturnsNone :
    State.reset.ser.stage = .done ∧ ∃ i t, exec i State.reset = .next t ∧ t.ser.stage ≠ .done :=
  ⟨rfl, .serLoad packet11, _, rfl, by decide⟩
theorem witness_SerRowsActAsSerNext :
    (withSer .dest 0#8 0#8 packet11).ser.stage = .dest ∧ (withSer .sender 0#8 0x85#8 packet11).ser.stage = .sender ∧
    (withSer .length 0#8 0x8C#8 packet11).ser.stage = .length ∧
    (∀ c ∈ [0#8, 2#8], (withSer .data c 0x8C#8 packet11).ser.stage = .data ∧ c.toNat < packet11.len) ∧
    ((0#8 : Byte).toNat + 1 ≠ packet11.len ∧ (2#8 : Byte).toNat + 1 = packet11.len) ∧
    (withSer .crc 3#8 0x8F#8 packet11).ser.stage = .crc := by decide
theorem witness_SerRowsRefusedOutsideTheirStage :
    State.reset.ser.stage ≠ .dest ∧ State.reset.ser.stage ≠ .sender ∧ State.reset.ser.stage ≠ .length ∧
    State.reset.ser.stage ≠ .data ∧ State.reset.ser.stage ≠ .crc := by decide
theorem witness_SerStageNeverMovesBack :
    ∃ t, exec .serNext (withSer .crc 3#8 0x8F#8 packet11) = .next t ∧ t.ser.stage ≠ .crc := ⟨_, rfl, by decide⟩
theorem witness_SerializerEmitsFrameThenNone : State.reset.ser.stage = .done := rfl
theorem witness_DesSeekAcceptsOnlyStartBytes : State.reset.des.stage = .seek ∧
    (∀ b ∈ [0x80#8, 0xBF#8], b &&& 0xC0#8 = 0x80#8 ∧ 0x80 ≤ b.toNat ∧ b.toNat ≤ 0xBF) ∧
    (∀ b ∈ [0x7F#8, 0xC0#8], b &&& 0xC0#8 ≠ 0x80#8 ∧ ¬ (0x80 ≤ b.toNat ∧ b.toNat ≤ 0xBF)) := by decide
/-- R103 at the ends of the range of start bytes. -/
theorem test_seek_boundary_bytes :
    ∀ p ∈ [(0x7F#8, DesStage.seek), (0x80#8, .sender), (0xBF#8, .sender), (0xC0#8, .seek)],
      (answer (exec (.desStep p.1) State.reset)).map (·.des.stage) = some p.2 := by decide
theorem witness_DesSenderTakesAnyByte : (withDes .sender 0#8 0#8 0x85#8 []).des.stage = .sender := rfl
theorem witness_DesLengthDeclaresPayload : (withDes .length 0#8 0#8 0x8C#8 []).des.stage = .length := rfl
theorem witness_DesDataBuffersByte :
    let s := withDes .data 3#8 2#8 0x8C#8 [0x01#8, 0x02#8]
    s.des.stage = .data ∧ s.des.buf.length = s.des.cursor.toNat ∧ s.des.cursor.toNat < s.des.len.toNat := by decide
theorem witness_DesChecksumDecidesAndCompletes :
    let s := withDes .checksum 3#8 3#8 0x8F#8 [0x01#8, 0x02#8, 0x03#8]
    s.des.stage = .checksum ∧ p123.bytes = s.des.buf ∧ s.des.buf.length = s.des.cursor.toNat := by decide

/-- A state in each stage of the Deserializer that meets the hypotheses of the row statement, each byte class among them. -/
theorem witness_DesStepRunsTheOneRowOfItsByte :
    ∀ s ∈ [State.reset, withDes .sender 0#8 0#8 0x85#8 [], withDes .length 0#8 0#8 0x8C#8 [],
        withDes .data 3#8 2#8 0x8C#8 [0x01#8, 0x02#8], withDes .checksum 3#8 3#8 0x8F#8 [0x01#8, 0x02#8, 0x03#8]],
      s.des.buf.length = s.des.cursor.toNat ∧ (s.des.stage = .data → s.des.cursor.toNat < s.des.len.toNat) := by decide
/-- Its row clauses at the bytes where they meet: for each byte in its stage the row that applies, and its neighbour refused. -/
theorem witness_DesStepRunsTheOneRowOfItsByte_boundaries :
    let atLength := withDes .length 0#8 0#8 0x8C#8 []
    (∀ b ∈ [0x80#8, 0xBF#8], (answer (exec (.desSeekAccept b) State.reset)).isSome = true ∧
      refusal (exec (.desSeekDiscard b) State.reset) = some .rowDoesNotApply) ∧
    (∀ b ∈ [0x7F#8, 0xC0#8], (answer (exec (.desSeekDiscard b) State.reset)).isSome = true ∧
      refusal (exec (.desSeekAccept b) State.reset) = some .rowDoesNotApply) ∧
    (answer (exec .desLengthZero atLength)).isSome = true ∧
    refusal (exec (.desLengthNonzero 0x00#8) atLength) = some .rowDoesNotApply ∧
    (answer (exec (.desLengthNonzero 0x01#8) atLength)).isSome = true := by decide
theorem witness_DesStageMovesAsListed :
    ∃ t, exec (.desStep 0x8F#8) (withDes .checksum 3#8 3#8 0x8F#8 [0x01#8, 0x02#8, 0x03#8]) = .next t := ⟨_, rfl⟩
theorem witness_DesReadRunsStepsUntilAnOutcome :
    (∃ t, exec (.desStep 0x00#8) State.reset = .next t ∧ t.results = State.reset.results ++ [.step .cont] ∧
      ∃ u, exec (.desRead []) t = .next u ∧ u.results = t.results ++ [.read 0 .noPacketYet]) ∧
    (∃ t, exec (.desStep 0xB0#8) (withDes .checksum 0#8 0#8 0xB1#8 []) = .next t ∧
      t.results = [] ++ [.step (.error .badCRC)]) ∧
    (∃ t P, exec (.desStep 0xB1#8) (withDes .checksum 0#8 0#8 0xB1#8 []) = .next t ∧ t.results = [] ++ [.step (.packet P)]) ∧
    (∃ t, exec (.desRead [0x83#8]) State.reset = .next t) :=
  ⟨⟨_, rfl, rfl, _, rfl, rfl⟩, ⟨_, rfl, rfl⟩, ⟨_, ⟨5#6, 9#6, ⟨[], by decide⟩⟩, rfl, rfl⟩, ⟨_, rfl⟩⟩
theorem witness_DesStepAndReadAlwaysReturn :
    ∀ s ∈ [State.reset, withDes .data 3#8 2#8 0x8C#8 [0x01#8, 0x02#8], withDes .checksum 0#8 0#8 0xB1#8 []],
      s.des.buf.length = s.des.cursor.toNat ∧
      (s.des.stage ≠ .data → s.des.stage ≠ .checksum → s.des.cursor = 0#8) ∧
      (s.des.stage = .data → s.des.cursor.toNat < s.des.len.toNat) := by decide
theorem witness_DesNeverReportsAddressErrors :
    (∃ t, exec (.desStep 0xB0#8) (withDes .checksum 0#8 0#8 0xB1#8 []) = .next t ∧
      t.results = [] ++ [.step (.error .badCRC)]) ∧
    (∃ t, exec (.desRead [0xB0#8]) (withDes .checksum 0#8 0#8 0xB1#8 []) = .next t ∧
      t.results = [] ++ [.read 1 (.error .badCRC)]) :=
  ⟨⟨_, rfl, rfl⟩, ⟨_, rfl, rfl⟩⟩
theorem witness_DesReadsAnyBytesOfFrameShape :
    State.reset.des = Des.reset ∧ (0x80#8 : Byte) &&& 0xC0#8 = 0x80#8 ∧ (0xBF#8 : Byte) &&& 0xC0#8 = 0x80#8 := by decide
theorem witness_RoundTripDeliversThePacket :
    State.reset.des = Des.reset ∧ (6 < (frame packet11).length) ∧ State.reset.ser.stage = .done := by decide
theorem witness_ReadsComposeAcrossChunks :
    (∃ t, exec (.desRead [0x00#8]) State.reset = .next t ∧ t.results = State.reset.results ++ [.read 1 .noPacketYet] ∧
      ∃ u, exec (.desRead [0x00#8]) t = .next u ∧ u.results = t.results ++ [.read 1 .noPacketYet]) ∧
    (∃ t o, exec (.desRead [0xB0#8, 0x00#8]) (withDes .checksum 0#8 0#8 0xB1#8 []) = .next t ∧
      t.results = [] ++ [.read 1 o] ∧ o ≠ .noPacketYet) :=
  ⟨⟨_, rfl, rfl, _, rfl, rfl⟩, ⟨_, .error .badCRC, rfl, rfl, by decide⟩⟩
theorem witness_FrameInChunksDeliversThePacket :
    State.reset.des = Des.reset ∧
    [[0x85#8, 0x09#8], [], [0x03#8]].flatten ++ [0x01#8, 0x02#8, 0x03#8, 0x8F#8] = frame packet11 ∧
    [0x01#8, 0x02#8, 0x03#8, 0x8F#8] ≠ ([] : List Byte) := by decide
theorem witness_SingleBitFlipsReportBadCrc :
    State.reset.des = Des.reset ∧
    ∀ kj ∈ [(0, 5), (1, 7), (3, 0), (6, 7)],
      kj.2 < 8 ∧ ((kj.1 = 0 ∧ kj.2 < 6) ∨ kj.1 = 1 ∨ (3 ≤ kj.1 ∧ kj.1 < 4 + packet11.len)) := by decide
theorem witness_WrongLengthByteMisplacesTheChecksum :
    State.reset.des = Des.reset ∧ packet11.len < (4#8 : Byte).toNat ∧
    ((2#8 : Byte).toNat < packet11.len ∧ [0x01#8, 0x02#8] = packet11.payload.bytes.take (2#8 : Byte).toNat ∧
      packet11.payload.bytes[(2#8 : Byte).toNat]? = some 0x03#8) := by decide
theorem witness_NoSingleBitFlipDeliversTheOriginal : State.reset.des = Des.reset ∧ 6 < 4 + packet11.len ∧ 7 < 8 := by decide
theorem witness_NoiseBeforeAFrameIsSkipped :
    State.reset.des = Des.reset ∧ ∀ b ∈ [0x00#8, 0x7F#8, 0xC0#8, 0xFF#8], b &&& 0xC0#8 ≠ (0x80#8 : Byte) := by decide
theorem witness_SuccessiveFramesAreAllReported :
    State.reset.des = Des.reset ∧
    ∀ it ∈ [([0x55#8], packet11, 0x00#8), (([] : List Byte), packet1, 0xB1#8)], ∀ b ∈ it.1, b &&& 0xC0#8 ≠ (0x80#8 : Byte) := by
  decide
theorem witness_ReservedSenderBitsAreIgnoredButSummed :
    State.reset.des = Des.reset ∧ (0xF2#8 : Byte).setWidth 6 = packet1.src ∧ (0xF2#8 : Byte) &&& 0xC0#8 ≠ 0#8 ∧
    0x71#8 = xorAll (destByte packet1.dest :: 0xF2#8 :: lengthByte packet1.payload :: packet1.payload.bytes) := by decide
theorem witness_ReorderedPayloadIsNotDetected :
    State.reset.des = Des.reset ∧ [0x02#8, 0x01#8, 0x03#8].Perm packet11.payload.bytes := by decide
theorem witness_UnitsDoNotTouchEachOther :
    (∃ t, exec (.pktDest packet1) State.reset = .next t ∧ (Instr.pktDest packet1).family = .pkt) ∧
    (∃ t, exec .serNext (withSer .dest 0#8 0#8 packet11) = .next t ∧ t.outStream ≠ []) ∧
    (∃ t, exec (.desStep 0x83#8) State.reset = .next t ∧ t.inStream ≠ []) := ⟨⟨_, rfl, rfl⟩, ⟨_, rfl, by decide⟩, ⟨_, rfl, by decide⟩⟩
theorem witness_ReadDependsOnTheDeserializerAlone :
    State.reset.des = (withSer .dest 0#8 0#8 packet11).des ∧ ∃ t, exec (.desRead [0x83#8]) State.reset = .next t :=
  ⟨rfl, _, rfl⟩
theorem witness_EveryOperationReturnsOneResult :
    (∃ t, exec .serNext State.reset = .next t) ∧ Instr.serNext ≠ .serReset := ⟨⟨_, rfl⟩, by decide⟩

/-- A request pending at a state with the invariants: SER.NEXT after reset. -/
theorem witness_EveryStepKeepsTheInvariant :
    ∃ s t : State, s.Inv ∧ step s = .next t ∧ t.results ≠ [] :=
  ⟨State.reset.setRequests [0x06#8], _, ⟨.inl ⟨rfl, rfl⟩, rfl, rfl, rfl⟩, rfl, by decide⟩
theorem witness_ReachableStatesNeverFault : ∃ s : State, Reachable s ∧ s.results ≠ [] :=
  ⟨_, .step (.issue [0x06#8] .reset) rfl, by decide⟩
theorem witness_DecodeReadsBackEncode :
    (Instr.desSeekAccept 0xBF#8).wf = true ∧ (Instr.desSeekDiscard 0x7F#8).wf = true ∧
    (Instr.desSeekDiscard 0xC0#8).wf = true ∧ (Instr.desLengthNonzero 0x01#8).wf = true := by decide
theorem witness_DecodedBytesAreTheEncoding : ∃ i rest, decode [0x83#8, 0x00#8] = .ok (i, rest) := ⟨_, _, rfl⟩
theorem witness_StepRunsTheDecodedRequest :
    ∃ i rest, decode (State.reset.setRequests [0x06#8, 0x07#8]).requests = .ok (i, rest) := ⟨_, _, rfl⟩
theorem witness_IdleStepChangesNothing : State.reset.requests = [] := rfl
theorem witness_StepRefusesUndecodableBytes :
    (State.reset.setRequests [0x0F#8]).requests ≠ [] ∧ ∃ e, decode (State.reset.setRequests [0x0F#8]).requests = .error e :=
  ⟨by decide, _, rfl⟩

end Sys2Proof.Tests
end

section
/-! PROOFS. The frame's bytes by bit and by value (30_encoding.md sections 1 and 2), and a sender byte with reserved bits
set (R56). -/

namespace Sys2Proof.Machine

/-! ### The address bytes -/

/-- The two marker bits `1 0` stand before the destination address (R48). -/
theorem destByte_eq_append (a : Addr) : destByte a = 0b10#2 ++ a := by
  revert a
  decide

/-- Two zero bits stand before the source address (R49). -/
theorem senderByte_eq_append (a : Addr) : senderByte a = 0b00#2 ++ a := by
  revert a
  decide

/-- The mask of R48 drops nothing of a 6-bit address. -/
theorem destByte_eq_or (a : Addr) : destByte a = 0x80#8 ||| a.setWidth 8 := by
  revert a
  decide

theorem toNat_destByte (a : Addr) : (destByte a).toNat = 0x80 + a.toNat := by
  revert a
  decide

theorem toNat_senderByte (a : Addr) : (senderByte a).toNat = a.toNat := by
  revert a
  decide

theorem destByte_topBits (a : Addr) : (destByte a).getLsbD 7 = true ∧ (destByte a).getLsbD 6 = false := by
  revert a
  decide

theorem senderByte_topBits (a : Addr) : (senderByte a).getLsbD 7 = false ∧ (senderByte a).getLsbD 6 = false := by
  revert a
  decide

/-- The reserved bits are sent as 0 (R56). -/
theorem senderByte_reserved (a : Addr) : senderByte a &&& 0xC0#8 = 0#8 := by
  revert a
  decide

/-- A byte with a reserved bit set is sent for no address. -/
theorem senderByte_ne_of_reserved {b : Byte} (h : b &&& 0xC0#8 ≠ 0#8) (a : Addr) : senderByte a ≠ b := by
  rintro rfl
  exact h (senderByte_reserved a)

/-! ### The checksum -/

/-- Seeding the sum with the header is summing the whole body from 0 (R52). -/
theorem foldl_payload_from_header (P : Packet) :
    P.payload.bytes.foldl (· ^^^ ·) (destByte P.dest ^^^ senderByte P.src ^^^ lengthByte P.payload) =
      xorAll (frameBody P) := by
  simp [xorAll, frameBody]

/-- Two sums that differ in one byte are equal only if the byte is. -/
theorem xorAll_second_inj (a x y : Byte) (bs : List Byte) :
    xorAll (a :: x :: bs) = xorAll (a :: y :: bs) ↔ x = y := by
  simp only [xorAll_cons, BitVec.xor_right_inj, BitVec.xor_left_inj]

/-! ### Reading bytes of the shape of a frame -/

/-- DES.READ of a fresh Deserializer on bytes of the shape of a frame and whatever follows them, on the whole state. -/
theorem exec_desRead_shape {s : State} {b0 : Byte} (b1 c : Byte) (p : Payload) (rest : List Byte)
    (hs : s.des = Des.reset) (h : isStart b0 = true) :
    exec (.desRead (b0 :: b1 :: lengthByte p :: (p.bytes ++ c :: rest))) s = .next { s with
      inStream := s.inStream ++ b0 :: b1 :: lengthByte p :: (p.bytes ++ [c])
      results := s.results ++ [.read (4 + p.bytes.length) (
        if c = xorAll (b0 :: b1 :: lengthByte p :: p.bytes) then .packet ⟨low6 b0, low6 b1, p⟩ else .error .badCRC)] } := by
  have hrun := desRead_shape b1 c p rest h
  have htake : (b0 :: b1 :: lengthByte p :: (p.bytes ++ c :: rest)).take (4 + p.bytes.length) =
      b0 :: b1 :: lengthByte p :: (p.bytes ++ [c]) := by
    rw [Nat.add_comm]
    simp [List.take_append]
  rw [← hs] at hrun
  rw [exec, execDesRead_of_run hrun, htake]
  rfl

/-! ### The obligations -/

/-- Settles O5: the frame is its three header bytes, the payload and the sum, and each header byte is known bit by bit. -/
theorem frameFieldsByOffset : Obligations.FrameFieldsByOffset := by
  intro P
  obtain ⟨hd7, hd6⟩ := destByte_topBits P.dest
  obtain ⟨hs7, hs6⟩ := senderByte_topBits P.src
  have hd : (destByte P.dest).setWidth 6 = P.dest := by rw [← low6_eq, low6_destByte]
  have hs : (senderByte P.src).setWidth 6 = P.src := by rw [← low6_eq, low6_senderByte]
  exact ⟨_, _, _, _, frame_eq P, length_frame P, P.payload.bound, hd7, hd6, hd, hs7, hs6, hs,
    toNat_lengthByte P.payload, rfl⟩

/-- Settles O6: the bytes written out are the model's `destByte`, `senderByte`, `lengthByte` and the sum of the body. -/
theorem frameBytesAssembled : Obligations.FrameBytesAssembled := by
  intro P b0 b1 b2 c
  have hc : c = xorAll (frameBody P) := foldl_payload_from_header P
  have hframe : frame P = [b0, b1, b2] ++ P.payload.bytes ++ [c] := by rw [hc]; rfl
  have hb0 : b0.toNat = 0x80 + P.dest.toNat := toNat_destByte P.dest
  have hb1 : b1.toNat = P.src.toNat := toNat_senderByte P.src
  have hdest := P.dest.isLt
  have hsrc := P.src.isLt
  refine ⟨hframe, ⟨destByte_eq_append _, destByte_eq_or _, ?_, ?_⟩, ⟨senderByte_eq_append _, ?_⟩,
    toNat_lengthByte _, fun i hi => frame_payload P hi, fun hempty => ?_, hc⟩
  · omega
  · omega
  · omega
  · rw [hframe, List.length_eq_zero_iff.1 hempty]
    rfl

/-- Settles O42: the address is the low six bits whatever the reserved bits hold, and no frame has a reserved bit set. -/
theorem reservedSenderBitsAreIgnoredButSummed : Obligations.ReservedSenderBitsAreIgnoredButSummed := by
  intro P s b1 c hs hsrc hres hc
  have hne : ∀ Q : Packet, (frame Q)[1]? ≠ some b1 := fun Q => by
    rw [frame_one, ne_eq, Option.some.injEq]
    exact senderByte_ne_of_reserved hres Q.src
  refine ⟨?_, fun Q => ⟨_, frame_one Q, senderByte_reserved Q.src⟩, fun Q hQ => hne Q (by rw [hQ]; rfl), hne P, ?_⟩
  · rw [exec_desRead_shape b1 c P.payload [] hs (isStart_destByte P.dest), if_pos hc, low6_destByte, low6_eq, hsrc]
  · rw [frame_checksum, ne_eq, Option.some.injEq, hc, frameBody, xorAll_second_inj]
    exact senderByte_ne_of_reserved hres P.src

end Sys2Proof.Machine
end

section
/-! PROOFS. The Packet operations (40_packet.md): each one only returns, PKT.CONSTRUCT an error (R65, R68) or the Packet,
the accessors a field (R66). -/

namespace Sys2Proof.Machine

/-! ### What each Packet operation answers -/

theorem exec_pktConstruct (dest src : Byte) (payload : Payload) (s : State) :
    exec (.pktConstruct dest src payload) s = .next (s.respond (.construct (construct dest src payload))) := rfl

theorem exec_pktDest (P : Packet) (s : State) : exec (.pktDest P) s = .next (s.respond (.addr P.dest)) := rfl

theorem exec_pktSrc (P : Packet) (s : State) : exec (.pktSrc P) s = .next (s.respond (.addr P.src)) := rfl

theorem exec_pktPayload (P : Packet) (s : State) : exec (.pktPayload P) s = .next (s.respond (.payload P.payload)) := rfl

/-! ### When PKT.CONSTRUCT fails -/

@[simp] theorem addrOutOfRange_iff (a : Byte) : addrOutOfRange a = true ↔ 63 < a.toNat := by
  simp [addrOutOfRange]

/-- One address above 63 is enough for an error; which error depends on the destination alone (R136). -/
theorem construct_error_of_outOfRange {dest src : Byte} (payload : Payload) (h : 63 < dest.toNat ∨ 63 < src.toNat) :
    ∃ e, construct dest src payload = .error e := by
  by_cases hdest : 63 < dest.toNat
  · exact ⟨.destinationAddressOutOfRange, by simp [construct, hdest]⟩
  · have hsrc : 63 < src.toNat := h.resolve_left hdest
    exact ⟨.senderAddressOutOfRange, by simp [construct, hdest, hsrc]⟩

/-! ### The obligations -/

/-- Settles O2: the only change is the error returned, and what PKT.CONSTRUCT returns does not depend on the state, so
operands in range give their Packet afterwards. -/
theorem pktConstructErrorLeavesNothingBehind : Obligations.PktConstructErrorLeavesNothingBehind := by
  intro dest src payload s h
  obtain ⟨e, he⟩ := construct_error_of_outOfRange payload h
  refine ⟨e, s.respond (.construct (.error e)), ?_, rfl, fun d r p => ?_⟩
  · rw [exec_pktConstruct, he]
  · rw [exec_pktConstruct, construct_of_addrs]
    rfl

/-- Settles O3: each accessor returns its field, and returning a result changes the list of results alone. -/
theorem pktAccessorsReturnTheFields : Obligations.PktAccessorsReturnTheFields := fun P s =>
  ⟨exec_pktDest P s, exec_pktSrc P s, exec_pktPayload P s⟩

end Sys2Proof.Machine
end

section
/-! PROOFS. SER.NEXT in each stage that emits a byte (41_serializer.md section 3, R78 to R82): the registers after it as the
rules write them, and from them the whole next state. -/

namespace Sys2Proof.Machine

/-! ### The registers, with the conditions of the rules on numbers -/

/-- Stage LENGTH tests the payload length itself: the length byte is 0 only for an empty payload (R80). -/
theorem serAtLength_eq (r : Ser) :
    serAtLength r = ({ r with
      cks := r.cks ^^^ lengthByte r.pkt.payload
      stage := if r.pkt.len = 0 then .crc else .data }, some (lengthByte r.pkt.payload)) := by
  simp only [serAtLength, beq_iff_eq, lengthByte_eq_zero, Packet.len]

/-- A cursor at a byte of the payload is below the length byte, so one more does not wrap. -/
theorem cursor_lt_lengthByte {r : Ser} {b : Byte} (h : r.pkt.payload.bytes[r.cursor.toNat]? = some b) :
    r.cursor.toNat < (lengthByte r.pkt.payload).toNat := by
  obtain ⟨hlt, -⟩ := List.getElem?_eq_some_iff.1 h
  rwa [toNat_lengthByte]

/-- Stage DATA leaves for CRC when the incremented cursor is the payload length (R81). -/
theorem serAtData_eq_of_get {r : Ser} {b : Byte} (h : r.pkt.payload.bytes[r.cursor.toNat]? = some b) :
    serAtData r = some ({ r with
      cks := r.cks ^^^ b
      cursor := r.cursor + 1#8
      stage := if r.cursor.toNat + 1 = r.pkt.len then .crc else .data }, some b) := by
  simp only [serAtData_of_get h, isLastAt_iff _ _ (cursor_lt_lengthByte h), toNat_lengthByte, Packet.len]

/-! ### The whole state -/

/-- Where SER.NEXT has a byte `b`, it is the result and the next byte of the output stream, and besides the Serializer's
registers nothing else changes (R87). -/
theorem exec_serNext_of_emits {s : State} {r : Ser} {b : Byte} (h : serNext s.ser = some (r, some b)) :
    exec .serNext s = .next { s with
      ser := r
      outStream := s.outStream ++ [b]
      results := s.results ++ [.byte (some b)] } := by
  rw [exec, execSerNext, h, concludeSer_some]
  rfl

/-! ### The obligations -/

/-- Settles O11: stage DEST emits `destByte`, which seeds the checksum. -/
theorem serNextEmitsDestinationByte : Obligations.SerNextEmitsDestinationByte := fun _ hstage =>
  exec_serNext_of_emits (serNext_of_dest hstage)

/-- Settles O12: stage SENDER emits `senderByte`. -/
theorem serNextEmitsSenderByte : Obligations.SerNextEmitsSenderByte := fun _ hstage =>
  exec_serNext_of_emits (serNext_of_sender hstage)

/-- Settles O13: the byte is `lengthByte`, whose value is the payload length since a payload fits 8 bits. -/
theorem serNextEmitsLengthByte : Obligations.SerNextEmitsLengthByte := fun s hstage =>
  have hnext := (serNext_of_length hstage).trans (congrArg some (serAtLength_eq s.ser))
  ⟨lengthByte s.ser.pkt.payload, toNat_lengthByte _, exec_serNext_of_emits hnext⟩

/-- Settles O14: the payload has a byte at the cursor, which is therefore below the length and does not wrap. -/
theorem serNextEmitsPayloadByte : Obligations.SerNextEmitsPayloadByte := fun _ _ hstage hbyte =>
  ⟨exec_serNext_of_emits ((serNext_of_data hstage).trans (serAtData_eq_of_get hbyte)),
    toNat_succ_of_lt _ _ (cursor_lt_lengthByte hbyte)⟩

/-- Settles O15: stage CRC emits the accumulator and moves nothing but the stage. -/
theorem serNextEmitsChecksumByte : Obligations.SerNextEmitsChecksumByte := fun _ hstage =>
  exec_serNext_of_emits (serNext_of_crc hstage)

end Sys2Proof.Machine
end

section
/-! PROOFS. DES.STEP in each stage that expects another byte (42_deserializer.md section 3, R103 to R106), DES.READ as a run of
DES.STEPs (section 4, R109), and that both always return (R112). -/

namespace Sys2Proof.Machine

/-! ### The whole state after DES.STEP and DES.READ -/

/-- DES.STEP answers as its step on the registers does, counts its byte as consumed and changes nothing else (R102). -/
theorem exec_desStep_next {s t : State} {b : Byte} :
    exec (.desStep b) s = .next t ↔ ∃ d r, desStep b s.des = some (d, r) ∧ t = { s with
      des := d
      inStream := s.inStream ++ [b]
      results := s.results ++ [.step r] } :=
  concludeDes_next

theorem exec_desStep_of_step {s : State} {b : Byte} {d : Des} {r : StepResult} (h : desStep b s.des = some (d, r)) :
    exec (.desStep b) s = .next { s with
      des := d
      inStream := s.inStream ++ [b]
      results := s.results ++ [.step r] } :=
  exec_desStep_next.2 ⟨d, r, h, rfl⟩

/-- DES.READ answers as its run on the registers does, consumes the bytes it counts and changes nothing else (R109). -/
theorem exec_desRead_next {s t : State} {bytes : List Byte} :
    exec (.desRead bytes) s = .next t ↔ ∃ d n o, desRead bytes s.des = some (d, n, o) ∧ t = { s with
      des := d
      inStream := s.inStream ++ bytes.take n
      results := s.results ++ [.read n o] } :=
  execDesRead_next

theorem exec_desRead_of_run {s : State} {bytes : List Byte} {d : Des} {n : Nat} {o : ReadOutcome}
    (h : desRead bytes s.des = some (d, n, o)) :
    exec (.desRead bytes) s = .next { s with
      des := d
      inStream := s.inStream ++ bytes.take n
      results := s.results ++ [.read n o] } :=
  exec_desRead_next.2 ⟨d, n, o, h, rfl⟩

/-! ### The registers, with the conditions of the rules on bytes -/

/-- The marker bits `1 0` are those of the bytes 0x80..0xBF (R54). -/
theorem topBits_eq_marker_iff (b : Byte) : b &&& 0xC0#8 = 0x80#8 ↔ 0x80 ≤ b.toNat ∧ b.toNat ≤ 0xBF := by
  revert b
  decide

/-- The two rows of stage SEEK as one (R103). -/
theorem desStep_seek {b : Byte} {d : Des} (h : d.stage = .seek) :
    desStep b d = some (
      if b &&& 0xC0#8 = 0x80#8 then { d with dest := b.setWidth 6, cks := b, stage := .sender } else d, .cont) := by
  by_cases hb : b &&& 0xC0#8 = 0x80#8
  · rw [desStep_seek_start h ((isStart_iff b).2 hb), if_pos hb, desSeekAccept, low6_eq]
    rfl
  · have hnoise : isStart b = false := by rwa [← Bool.not_eq_true, isStart_iff]
    rw [desStep_seek_noise h hnoise, if_neg hb]
    rfl

/-- Stage DATA where the store discipline holds, with the comparison of R106 written on the bytes. -/
theorem desStep_data_of_length {b : Byte} {d : Des} (h : d.stage = .data) (hbuf : d.buf.length = d.cursor.toNat)
    (hlt : d.cursor.toNat < d.len.toNat) :
    desStep b d = some ({ d with
      buf := d.buf ++ [b]
      cursor := d.cursor + 1#8
      cks := d.cks ^^^ b
      stage := if d.cursor + 1#8 = d.len then .checksum else .data }, .cont) := by
  have hw : Memory.wf d = true := beq_iff_eq.2 hbuf
  simp only [desStep_data_of_wf h hw hlt, continuing, isLastAt, beq_iff_eq]

/-! ### DES.READ as a run -/

/-- After a DES.STEP that answers Continue the read is that of the bytes left, with one byte more consumed. -/
theorem exec_desRead_cons_of_cont {s : State} {b : Byte} {bs : List Byte} {d d' : Des} {n : Nat} {o : ReadOutcome}
    (h : desStep b s.des = some (d, .cont)) (hrun : desRead bs d = some (d', n, o)) :
    exec (.desRead (b :: bs)) s = .next { s with
      des := d'
      inStream := s.inStream ++ b :: bs.take n
      results := s.results ++ [.read (n + 1) o] } := by
  have hall : desRead (b :: bs) s.des = some (d', n + 1, o) := by
    rw [desRead_cons_cont h, hrun, after_some, Nat.add_comm]
  exact exec_desRead_of_run hall

/-- What the outcome of a run says of its count and of the registers it leaves (R109). -/
theorem desRead_count {bytes : List Byte} {d d' : Des} {n : Nat} {o : ReadOutcome}
    (h : desRead bytes d = some (d', n, o)) :
    (o = .noPacketYet → n = bytes.length) ∧
    (o ≠ .noPacketYet → 1 ≤ n ∧ n ≤ bytes.length ∧ d' = Des.reset) ∧
    (bytes ≠ [] → 1 ≤ n) := by
  obtain ⟨rfl, rfl⟩ | ⟨ho, hpos, hle, hreset⟩ := desRead_result h
  · exact ⟨fun _ => rfl, fun hne => absurd rfl hne, List.length_pos_of_ne_nil⟩
  · have hne : o ≠ .noPacketYet := by
      obtain ⟨P, rfl⟩ | rfl := ho <;> simp
    exact ⟨fun heq => absurd heq hne, fun _ => ⟨hpos, hle, hreset⟩, fun _ => hpos⟩

/-! ### The obligations -/

/-- Settles O29: the first step decides whether the read ends with its byte or goes on from the state it left, and the run on
the registers says what any read consumed and left. -/
theorem desReadRunsStepsUntilAnOutcome : Obligations.DesReadRunsStepsUntilAnOutcome := by
  refine ⟨fun s t b bs r hexec hres => ?_, fun s t bytes hexec => ?_⟩
  · obtain ⟨d, r', hstep, rfl⟩ := exec_desStep_next.1 hexec
    obtain rfl : r' = r := by simpa using hres
    refine ⟨?packet, ?error, ?cont⟩
    case packet =>
      rintro P rfl
      exact exec_desRead_of_run (desRead_cons_packet hstep)
    case error =>
      rintro e rfl
      exact exec_desRead_of_run (desRead_cons_error hstep)
    case cont =>
      rintro u n o rfl hrest hures
      obtain ⟨d', n', o', hrun, rfl⟩ := exec_desRead_next.1 hrest
      obtain ⟨rfl, rfl⟩ : n' = n ∧ o' = o := by simpa using hures
      simp only [exec_desRead_cons_of_cont hstep hrun, List.append_assoc, List.singleton_append]
  · obtain ⟨d, n, o, hrun, rfl⟩ := exec_desRead_next.1 hexec
    exact ⟨n, o, rfl, desRead_count hrun⟩

/-- Settles O31: the hypotheses are the registers' regularity, from which a step and a run always answer. -/
theorem desStepAndReadAlwaysReturn : Obligations.DesStepAndReadAlwaysReturn := by
  intro s hbuf hzero hlt
  have hreg : Regular s.des := ⟨beq_iff_eq.2 hbuf, hzero, hlt⟩
  refine ⟨fun b => ?_, fun bytes => ?_⟩
  · obtain ⟨d, r, hstep⟩ := desStep_total b hreg.wf hreg.lt
    exact ⟨_, r, exec_desStep_of_step hstep, rfl⟩
  · obtain ⟨d, n, o, hrun⟩ := desRead_total bytes hreg
    exact ⟨_, n, o, exec_desRead_of_run hrun, rfl⟩

/-- Settles O21: the two rows of stage SEEK, told apart by the marker bits, which are those of 0x80..0xBF. -/
theorem desSeekAcceptsOnlyStartBytes : Obligations.DesSeekAcceptsOnlyStartBytes := fun _ b hstage =>
  ⟨exec_desStep_of_step (desStep_seek hstage), topBits_eq_marker_iff b⟩

/-- Settles O22: stage SENDER has one row for every byte; the mask keeps the low six bits. -/
theorem desSenderTakesAnyByte : Obligations.DesSenderTakesAnyByte := by
  intro s b hstage
  have hstep := desStep_sender (b := b) hstage
  rw [desSender, low6_eq] at hstep
  exact exec_desStep_of_step hstep

/-- Settles O23: the rows of a zero and of a nonzero length byte differ in the stage alone. -/
theorem desLengthDeclaresPayload : Obligations.DesLengthDeclaresPayload := fun _ _ hstage =>
  exec_desStep_of_step (desStep_length hstage)

/-- Settles O24: the buffer ends at the cursor, so the byte goes behind it, and the cursor is below the length, so it does
not wrap. -/
theorem desDataBuffersByte : Obligations.DesDataBuffersByte := fun _ _ hstage hbuf hlt =>
  ⟨exec_desStep_of_step (desStep_data_of_length hstage hbuf hlt), toNat_succ_of_lt _ _ hlt⟩

end Sys2Proof.Machine
end

section
/-! PROOFS. Both codecs together (43_properties.md): a frame read whole, cut short (R120) or behind noise (R123), SERIALIZE and
DESERIALIZE as each other's inverse (R120), and the boundaries of lengths and addresses (R124). -/

namespace Sys2Proof.Machine

/-! ### DES.READ of a frame, of a frame cut short, and behind noise -/

theorem desRead_frame (P : Packet) :
    desRead (frame P) Des.reset = some (Des.reset, (frame P).length, .packet P) := by
  have hrun := desRead_shape (senderByte P.src) (xorAll (frameBody P)) P.payload [] (isStart_destByte P.dest)
  rwa [← frameBody, ← frame_eq, if_pos rfl, low6_destByte, low6_senderByte, ← length_frame] at hrun

/-- Input that has its outcome only at its last byte has none when cut short: an outcome inside the part would be the outcome
of the whole, and would have come too early. -/
theorem desRead_take_of_ends_at_last {bytes : List Byte} {d d' : Des} {o : ReadOutcome} {k : Nat} (hreg : Regular d)
    (hrun : desRead bytes d = some (d', bytes.length, o)) (hk : k < bytes.length) :
    ∃ e, desRead (bytes.take k) d = some (e, k, .noPacketYet) := by
  have hlen : (bytes.take k).length = k := List.length_take_of_le hk.le
  obtain ⟨e, n, q, hpart⟩ := desRead_total (bytes.take k) hreg
  obtain ⟨hsilent, hearly, -⟩ := desRead_count hpart
  by_cases hq : q = .noPacketYet
  · obtain rfl : n = k := (hsilent hq).trans hlen
    exact ⟨e, hq ▸ hpart⟩
  · have hwhole := desRead_append_of_outcome (ys := bytes.drop k) hpart hq
    rw [List.take_append_drop, hrun] at hwhole
    simp only [Option.some.injEq, Prod.mk.injEq] at hwhole
    obtain ⟨-, hn, -⟩ := hwhole
    obtain ⟨-, hle, -⟩ := hearly hq
    omega

/-- A seeking Deserializer reads what follows noise as if the noise were not there, but for the count (R103). -/
theorem desRead_noise_append {z bytes : List Byte} {d d' : Des} {n : Nat} {o : ReadOutcome} (h : d.stage = .seek)
    (hz : ∀ b ∈ z, isStart b = false) (hrun : desRead bytes d = some (d', n, o)) :
    desRead (z ++ bytes) d = some (d', z.length + n, o) := by
  rw [desRead_append_of_none_yet (desRead_noise h hz), hrun, after_some]

/-- A read that takes all of its input and leaves the registers as they were changes the input stream and the results
alone. -/
theorem exec_desRead_of_full_run {s : State} {bytes : List Byte} {o : ReadOutcome}
    (h : desRead bytes s.des = some (s.des, bytes.length, o)) :
    exec (.desRead bytes) s = .next { s with
      inStream := s.inStream ++ bytes
      results := s.results ++ [.read bytes.length o] } := by
  rw [exec_desRead_of_run h, List.take_length]

/-! ### The pseudo-operations -/

theorem issue_of_exec {i : Instr} {s t : State} {r : Result} (h : exec i s = .next t) (hr : t.results = s.results ++ [r]) :
    issue i s = some (r, t) := by
  simp [issue, h, hr]

/-- In stage DONE SER.NEXT returns `None` and that is all (R83). -/
theorem exec_serNext_of_done {s : State} (h : s.ser.stage = .done) : exec .serNext s = .next (s.respond (.byte none)) := by
  rw [exec, execSerNext, serNext_done h, concludeSer_some]
  simp [State.setSer, State.emit]

/-- Behind the last byte the Serializer is done: every other place is at an earlier byte (R13). -/
theorem stage_done_of_at_end {P : Packet} {r : Ser} (h : r.At P (4 + P.len)) : r.stage = .done := by
  obtain ⟨-, -, ⟨h, -⟩ | ⟨h, -⟩ | ⟨h, -⟩ | ⟨h, hlt, -⟩ | ⟨h, -⟩ | ⟨-, hstage, -⟩⟩ := h
  case inr.inr.inr.inr.inr => exact hstage
  all_goals omega

theorem pullAll_succ_of_byte {n : Nat} {s t u : State} {b : Byte} {bs : List Byte}
    (hb : issue .serNext s = some (.byte (some b), t)) (hbs : pullAll n t = some (bs, u)) :
    pullAll (n + 1) s = some (b :: bs, u) := by
  simp only [pullAll, hb, hbs, Option.map_some]

theorem pullAll_succ_of_none {s t : State} (n : Nat) (h : issue .serNext s = some (.byte none, t)) :
    pullAll (n + 1) s = some ([], t) := by
  simp only [pullAll, h]

/-- From byte `k` of the frame, calls enough for the bytes left and the `None` behind them pull those bytes (R84). -/
theorem pullAll_at {P : Packet} {k n : Nat} {s : State} (h : s.ser.At P k) (hk : k ≤ 4 + P.len) (hn : 4 + P.len < k + n) :
    ∃ t, pullAll n s = some ((frame P).drop k, t) := by
  induction n generalizing k s with
  | zero => omega
  | succ n ih =>
    by_cases hlt : k < 4 + P.len
    · obtain ⟨r, b, hb, hnext, hat⟩ := serNext_at h hlt
      obtain ⟨t, ht⟩ := ih (s := ((s.setSer r).emit [b]).respond (.byte (some b))) hat hlt (by omega)
      have hissue := issue_of_exec (exec_serNext_of_emits hnext) rfl
      obtain ⟨hlen, rfl⟩ := List.getElem?_eq_some_iff.1 hb
      rw [List.drop_eq_getElem_cons hlen]
      exact ⟨t, pullAll_succ_of_byte hissue ht⟩
    · obtain rfl : k = 4 + P.len := by omega
      have hissue := issue_of_exec (exec_serNext_of_done (stage_done_of_at_end h)) rfl
      rw [List.drop_eq_nil_of_le (length_frame P).le]
      exact ⟨_, pullAll_succ_of_none n hissue⟩

/-- SERIALIZE gives the frame: SER.LOAD stands at byte 0, and a frame is shorter than the 260 calls (R47, R60). -/
theorem serialize_eq_frame (P : Packet) {s : State} (h : s.ser.stage = .done) :
    ∃ t, serialize P s = some (frame P, t) := by
  have hbound : P.len ≤ 255 := P.payload.bound
  have hload : exec (.serLoad P) s =
      .next ((s.setSer { stage := .dest, cks := 0#8, cursor := 0#8, pkt := P }).respond .unit) := if_pos h
  rw [serialize, issue_of_exec hload rfl]
  exact pullAll_at (at_zero_of_load P) (Nat.zero_le _) (by omega)

/-- DESERIALIZE gives the outcome of a fresh Deserializer, in whatever state it starts (R60, R101). -/
theorem deserialize_of_run {bytes : List Byte} {d : Des} {n : Nat} {o : ReadOutcome}
    (h : desRead bytes Des.reset = some (d, n, o)) (s : State) : ∃ u, deserialize bytes s = some (o, u) := by
  have hreset : exec .desReset s = .next ((s.setDes Des.reset).respond .unit) := rfl
  have hread := exec_desRead_of_run (s := (s.setDes Des.reset).respond .unit) h
  simp only [deserialize, issue_of_exec hreset rfl, issue_of_exec hread rfl]
  exact ⟨_, rfl⟩

/-! ### PKT.CONSTRUCT with an address out of range -/

theorem construct_of_dest_outOfRange {dest : Byte} (src : Byte) (payload : Payload) (h : 63 < dest.toNat) :
    construct dest src payload = .error .destinationAddressOutOfRange := by
  simp [construct, h]

theorem construct_of_src_outOfRange {dest src : Byte} (payload : Payload) (hd : dest.toNat ≤ 63) (hs : 63 < src.toNat) :
    construct dest src payload = .error .senderAddressOutOfRange := by
  simp [construct, hd.not_gt, hs]

/-! ### The obligations -/

/-- Settles O34: the read of the frame ends at its last byte, hence no proper part of it has an outcome; SERIALIZE walks the
frame from its first byte and DESERIALIZE reads it with a fresh Deserializer. -/
theorem roundTripDeliversThePacket : Obligations.RoundTripDeliversThePacket := by
  intro P s hs
  have hrun := desRead_frame P
  refine ⟨?whole, fun k hk => ?cutShort, fun hdone => ?roundTrip⟩
  case whole =>
    rw [← hs] at hrun
    rw [exec_desRead_of_full_run hrun, length_frame]
  case cutShort =>
    obtain ⟨d, hpart⟩ := desRead_take_of_ends_at_last regular_reset hrun hk
    rw [← hs] at hpart
    refine ⟨d, ?_⟩
    rw [exec_desRead_of_run hpart, List.take_take, min_self]
  case roundTrip =>
    obtain ⟨t, ht⟩ := serialize_eq_frame P hdone
    obtain ⟨u, hu⟩ := deserialize_of_run hrun t
    exact ⟨t, u, ht, hu⟩

/-- Settles O40: noise leaves the Deserializer fresh, so the frame behind it is read as it would be alone. -/
theorem noiseBeforeAFrameIsSkipped : Obligations.NoiseBeforeAFrameIsSkipped := by
  intro P z s hs hz
  have hnoise : ∀ b ∈ z, isStart b = false := fun b hb => by
    rw [← Bool.not_eq_true, isStart_iff]
    exact hz b hb
  have hrun := desRead_noise_append rfl hnoise (desRead_frame P)
  rw [← List.length_append, ← hs] at hrun
  rw [exec_desRead_of_full_run hrun, List.length_append, length_frame]

/-- Settles O4: a frame is its three header bytes, the payload and the checksum, and 64 is the first address out of range. -/
theorem boundaryLengthsAndAddresses : Obligations.BoundaryLengthsAndAddresses := by
  refine ⟨fun P hempty => ?_, fun P hfull => ?_, fun a payload s ha => ⟨?_, ?_⟩⟩
  · rw [frame_eq, List.length_eq_zero_iff.1 hempty]
    exact ⟨_, _, _, _, rfl⟩
  · rw [length_frame, hfull]
  · rw [exec_pktConstruct, construct_of_dest_outOfRange a payload (by decide)]
    rfl
  · rw [exec_pktConstruct, construct_of_src_outOfRange payload ha (by decide)]
    rfl

end Sys2Proof.Machine
end

section
/-! PROOFS. Requests (the model's byte form, log 1): the decoder reads back every encoding and reads nothing else, and the
step runs what the decoder reads (log 3). -/

namespace Sys2Proof

/-! ### Reading back what was written -/

/-- The pattern of DES.SEEK.DISCARD in stage SEEK leaves a byte above 0x7F only where it is above 0xBF (R54). -/
theorem discardPattern_iff (b : Byte) :
    (b &&& 0x80#8 = 0x00#8 ∨ b &&& 0xC0#8 = 0xC0#8) ↔ b.toNat < 0x80 ∨ 0xC0 ≤ b.toNat := by
  revert b
  decide

theorem decode_of_accept {b : Byte} (rest : List Byte) (hlow : 0x80 ≤ b.toNat) (hhigh : b.toNat < 0xC0) :
    decode (b :: rest) = .ok (.desSeekAccept b, rest) := by
  rw [decode, if_neg hlow.not_gt, if_pos hhigh]

theorem decode_of_discard {b : Byte} (rest : List Byte) (h : 0xC0 ≤ b.toNat) :
    decode (b :: rest) = .ok (.desSeekDiscard b, rest) := by
  rw [decode, if_neg (by omega), if_neg h.not_gt]

theorem decode_encode_desSeekAccept {b : Byte} (rest : List Byte) (h : (Instr.desSeekAccept b).wf = true) :
    decode (encode (.desSeekAccept b) ++ rest) = .ok (.desSeekAccept b, rest) := by
  obtain ⟨hlow, hhigh⟩ := (Machine.topBits_eq_marker_iff b).1 (beq_iff_eq.1 h)
  exact decode_of_accept rest hlow (by omega)

theorem decode_encode_desSeekDiscard {b : Byte} (rest : List Byte) (h : (Instr.desSeekDiscard b).wf = true) :
    decode (encode (.desSeekDiscard b) ++ rest) = .ok (.desSeekDiscard b, rest) := by
  have hrange : b.toNat < 0x80 ∨ 0xC0 ≤ b.toNat := (discardPattern_iff b).1 (by simpa [Instr.wf] using h)
  by_cases hb : b.toNat < 0x80
  · rw [encode, if_pos hb]
    exact if_pos hb
  · rw [encode, if_neg hb]
    exact decode_of_discard rest (hrange.resolve_left hb)

/-! ### Writing back what was read -/

/-- What a request's operands were read as, carried through the constructor that takes them. -/
theorem wf_and_encode_of_parsedMap {α : Type} {f : α → Instr} {x : Parsed α} {i : Instr} {bs rest : List Byte}
    (h : parsedMap f x = .ok (i, rest))
    (hread : ∀ a, x = .ok (a, rest) → (f a).wf = true ∧ bs = encode (f a) ++ rest) :
    i.wf = true ∧ bs = encode i ++ rest := by
  obtain ⟨a, ha, rfl⟩ := parsedMap_eq_ok.1 h
  exact hread a ha

theorem keepWellFormed_eq_ok {x : Parsed Instr} {i : Instr} {rest : List Byte} :
    keepWellFormed x = .ok (i, rest) ↔ x = .ok (i, rest) ∧ i.wf = true := by
  cases x with
  | error e => simp [keepWellFormed]
  | ok y =>
    obtain ⟨j, r⟩ := y
    cases hj : j.wf
    · simp only [keepWellFormed, hj, Bool.false_eq_true, if_false, reduceCtorEq, Except.ok.injEq, Prod.mk.injEq, false_iff]
      rintro ⟨⟨rfl, -⟩, hi⟩
      simp [hj] at hi
    · simp only [keepWellFormed, hj, if_true, Except.ok.injEq, Prod.mk.injEq, iff_self_and]
      rintro ⟨rfl, -⟩
      exact hj

theorem decodeConstruct_eq_ok {bs rest : List Byte} {i : Instr} (h : decodeConstruct bs = .ok (i, rest)) :
    i.wf = true ∧ 0x00#8 :: bs = encode i ++ rest := by
  unfold decodeConstruct at h
  split at h
  · exact wf_and_encode_of_parsedMap h fun p hp => ⟨rfl, by rw [decodePayload_eq_ok hp]; rfl⟩
  · cases h

/-- The first byte below 0x80 and the operands behind it are the encoding of what they are read as. -/
theorem decodeSelector_eq_ok {n : Nat} {bs rest : List Byte} {i : Instr} (h : decodeSelector n bs = .ok (i, rest)) :
    i.wf = true ∧ BitVec.ofNat 8 n :: bs = encode i ++ rest := by
  have packet : ∀ {f : Packet → Instr} {op : Byte}, (∀ P, (f P).wf = true ∧ encode (f P) = op :: encodePacket P) →
      parsedMap f (decodePacket bs) = .ok (i, rest) → i.wf = true ∧ op :: bs = encode i ++ rest := fun hf hmap =>
    wf_and_encode_of_parsedMap hmap fun P hP => ⟨(hf P).1, by rw [(hf P).2, decodePacket_eq_ok hP]; rfl⟩
  have byte : ∀ {f : Byte → Instr} {op : Byte}, (∀ b, (f b).wf = true ∧ encode (f b) = [op, b]) →
      parsedMap f (decodeByte bs) = .ok (i, rest) → i.wf = true ∧ op :: bs = encode i ++ rest := fun hf hmap =>
    wf_and_encode_of_parsedMap hmap fun b hb => ⟨(hf b).1, by rw [(hf b).2, decodeByte_eq_ok.1 hb]; rfl⟩
  unfold decodeSelector at h
  -- One case per row of the selector table, in its order.
  split at h
  case h_1 => exact decodeConstruct_eq_ok h
  case h_2 | h_3 | h_4 | h_6 => exact packet (fun _ => ⟨rfl, rfl⟩) h
  case h_9 | h_17 | h_20 | h_21 => exact byte (fun _ => ⟨rfl, rfl⟩) h
  case h_10 =>
    exact wf_and_encode_of_parsedMap h fun out hout => ⟨rfl, by rw [decodeSequence_eq_ok _ _ _ hout]; rfl⟩
  case h_16 =>
    split at h
    · cases h
    · rename_i b _
      split at h
      · rename_i hb
        cases h
        refine ⟨by simpa [Instr.wf] using (discardPattern_iff b).2 (.inl hb), ?_⟩
        rw [encode, if_pos hb]
        rfl
      · cases h
  case h_19 =>
    obtain ⟨hmap, hwf⟩ := keepWellFormed_eq_ok.1 h
    refine ⟨hwf, ?_⟩
    obtain ⟨b, hb, rfl⟩ := parsedMap_eq_ok.1 hmap
    rw [decodeByte_eq_ok.1 hb]
    rfl
  case h_22 => cases h
  all_goals
    cases h
    exact ⟨rfl, rfl⟩

/-! ### The obligations -/

/-- Settles O52, instruction by instruction: the first byte says which one it is, and each operand is read back whole. -/
theorem decodeReadsBackEncode : Obligations.DecodeReadsBackEncode := by
  intro i rest hwf
  cases i with
  | pktConstruct d r p => exact congrArg (parsedMap (Instr.pktConstruct d r)) (decodePayload_encode p rest)
  | pktDest P => exact congrArg (parsedMap Instr.pktDest) (decodePacket_encode P rest)
  | pktSrc P => exact congrArg (parsedMap Instr.pktSrc) (decodePacket_encode P rest)
  | pktPayload P => exact congrArg (parsedMap Instr.pktPayload) (decodePacket_encode P rest)
  | serLoad P => exact congrArg (parsedMap Instr.serLoad) (decodePacket_encode P rest)
  | desRead bytes => exact congrArg (parsedMap Instr.desRead) (decodeSequence_encode bytes rest)
  | desSeekAccept b => exact decode_encode_desSeekAccept rest hwf
  | desSeekDiscard b => exact decode_encode_desSeekDiscard rest hwf
  | desLengthNonzero b => exact keepWellFormed_eq_ok.2 ⟨rfl, hwf⟩
  | serReset | serNext | desReset | desStep b | serNextDest | serNextSender | serNextLength | serNextData | serNextCrc
  | desSender b | desLengthZero | desData b | desChecksum b => rfl

/-- Settles O53: a first byte below 0x80 selects what is read, and one above is the whole of a SEEK row. -/
theorem decodedBytesAreTheEncoding : Obligations.DecodedBytesAreTheEncoding := by
  intro bs rest i h
  cases bs with
  | nil => cases h
  | cons op bs =>
    rw [decode] at h
    split at h
    · have hread := decodeSelector_eq_ok h
      rwa [BitVec.ofNat_toNat, BitVec.setWidth_eq] at hread
    · rename_i hlow
      split at h
      · rename_i hhigh
        cases h
        exact ⟨beq_iff_eq.2 ((Machine.topBits_eq_marker_iff op).2 ⟨by omega, by omega⟩), rfl⟩
      · rename_i hhigh
        cases h
        refine ⟨by simpa [Instr.wf] using (discardPattern_iff op).2 (.inr (by omega)), ?_⟩
        rw [encode, if_neg hlow]
        rfl

/-- Settles O54, by evaluating the decoder on each word. -/
theorem sampleWordsDecode : Obligations.SampleWordsDecode := ⟨rfl, rfl, rfl, rfl, rfl, rfl⟩

end Sys2Proof

namespace Sys2Proof.Machine

/-! ### What a step finds -/

theorem fetch_of_nil {s : State} (h : s.requests = []) : s.fetch = none := by
  simp [State.fetch, h]

theorem fetch_of_ne_nil {s : State} (h : s.requests ≠ []) : s.fetch = some (decode s.requests) := by
  simp [State.fetch, h]

/-- Bytes that decode are pending bytes. -/
theorem requests_ne_nil_of_decode {s : State} {x : Instr × List Byte} (h : decode s.requests = .ok x) :
    s.requests ≠ [] := by
  intro hnil
  rw [hnil] at h
  cases h

theorem step_of_decode {s : State} {i : Instr} {rest : List Byte} (h : decode s.requests = .ok (i, rest)) :
    step s = exec i (s.setRequests rest) := by
  simp only [step, fetch_of_ne_nil (requests_ne_nil_of_decode h), h]

theorem step_of_nil {s : State} (h : s.requests = []) : step s = .next s := by
  simp only [step, fetch_of_nil h]

theorem step_of_decode_error {s : State} {e : DecodeError} (hne : s.requests ≠ []) (h : decode s.requests = .error e) :
    step s = .refused (.undecodable e) := by
  simp only [step, fetch_of_ne_nil hne, h]

/-- All that a step can be: idle, the operation that the pending bytes start with, or a refusal of bytes that are none. -/
theorem step_cases (s : State) :
    step s = .next s ∨ (∃ i rest, step s = exec i (s.setRequests rest)) ∨ ∃ e, step s = .refused (.undecodable e) := by
  by_cases hnil : s.requests = []
  · exact .inl (step_of_nil hnil)
  · cases h : decode s.requests with
    | ok x => exact .inr (.inl ⟨x.1, x.2, step_of_decode h⟩)
    | error e => exact .inr (.inr ⟨e, step_of_decode_error hnil h⟩)

/-! ### The obligations -/

/-- Settles O55: taking the request's bytes off the queue changes the queue alone. -/
theorem stepRunsTheDecodedRequest : Obligations.StepRunsTheDecodedRequest := fun _ _ _ h => step_of_decode h

/-- Settles O56: there is nothing to fetch. -/
theorem idleStepChangesNothing : Obligations.IdleStepChangesNothing := fun _ h => step_of_nil h

/-- Settles O57: what is fetched is the decoder's error. -/
theorem stepRefusesUndecodableBytes : Obligations.StepRefusesUndecodableBytes := fun _ _ hne h =>
  step_of_decode_error hne h

end Sys2Proof.Machine
end

section
/-! PROOFS. The rows of the opcode table: each is SER.NEXT or DES.STEP restricted to the row's stage and bytes
(30_encoding.md sections 3 and 8, log 2). -/

namespace Sys2Proof.Machine

/-! ### The classes of input byte -/

theorem classify_eq_seekAccept (stage : DesStage) (b : Byte) :
    classify stage b = .seekAccept ↔ stage = .seek ∧ b &&& 0xC0#8 = 0x80#8 := by
  cases stage <;> simp [classify, ← isStart_iff, ite_eq_iff]

/-- The two patterns of DES.SEEK.DISCARD are the bytes without the start marker (R54). -/
theorem discardPattern_iff_not_marker (b : Byte) :
    (b &&& 0x80#8 = 0x00#8 ∨ b &&& 0xC0#8 = 0xC0#8) ↔ ¬ b &&& 0xC0#8 = 0x80#8 := by
  revert b
  decide

theorem classify_eq_seekDiscard (stage : DesStage) (b : Byte) :
    classify stage b = .seekDiscard ↔ stage = .seek ∧ (b &&& 0x80#8 = 0x00#8 ∨ b &&& 0xC0#8 = 0xC0#8) := by
  rw [discardPattern_iff_not_marker]
  cases stage <;> simp [classify, ← isStart_iff, ite_eq_iff]

theorem classify_eq_sender (stage : DesStage) (b : Byte) : classify stage b = .sender ↔ stage = .sender := by
  cases stage <;> simp [classify, ite_eq_iff]

theorem classify_eq_lengthZero (stage : DesStage) (b : Byte) :
    classify stage b = .lengthZero ↔ stage = .length ∧ b = 0x00#8 := by
  cases stage <;> simp [classify, ite_eq_iff]

theorem classify_eq_lengthNonzero (stage : DesStage) (b : Byte) :
    classify stage b = .lengthNonzero ↔ stage = .length ∧ b ≠ 0x00#8 := by
  cases stage <;> simp [classify, ite_eq_iff]

theorem classify_eq_data (stage : DesStage) (b : Byte) : classify stage b = .data ↔ stage = .data := by
  cases stage <;> simp [classify, ite_eq_iff]

theorem classify_eq_checksum (stage : DesStage) (b : Byte) : classify stage b = .checksum ↔ stage = .checksum := by
  cases stage <;> simp [classify, ite_eq_iff]

/-! ### Each row as its operation -/

/-- A SER-EMIT row in its stage, where SER.NEXT does the same, and anywhere else. -/
theorem serRow_eq_serNext (s : State) {stage : SerStage} {o : Option (Ser × Option Byte)}
    (h : s.ser.stage = stage → serNext s.ser = o) :
    (if s.ser.stage = stage then s.concludeSer o else .refused .rowDoesNotApply) =
      if s.ser.stage = stage then exec .serNext s else .refused .rowDoesNotApply :=
  if_ctx_congr .rfl (fun hstage => congrArg s.concludeSer (h hstage).symm) fun _ => rfl

theorem exec_serNextDest (s : State) :
    exec .serNextDest s = if s.ser.stage = .dest then exec .serNext s else .refused .rowDoesNotApply :=
  serRow_eq_serNext s serNext_of_dest

theorem exec_serNextSender (s : State) :
    exec .serNextSender s = if s.ser.stage = .sender then exec .serNext s else .refused .rowDoesNotApply :=
  serRow_eq_serNext s serNext_of_sender

theorem exec_serNextLength (s : State) :
    exec .serNextLength s = if s.ser.stage = .length then exec .serNext s else .refused .rowDoesNotApply :=
  serRow_eq_serNext s serNext_of_length

theorem exec_serNextData (s : State) :
    exec .serNextData s = if s.ser.stage = .data then exec .serNext s else .refused .rowDoesNotApply :=
  serRow_eq_serNext s serNext_of_data

theorem exec_serNextCrc (s : State) :
    exec .serNextCrc s = if s.ser.stage = .crc then exec .serNext s else .refused .rowDoesNotApply :=
  serRow_eq_serNext s serNext_of_crc

/-- A DES-BYTE row where the byte is of its class, there DES.STEP does the same, and anywhere else. -/
theorem desRow_eq_desStep (s : State) {c : ByteClass} {b : Byte} {q : Prop} [Decidable q]
    (h : classify s.des.stage b = c ↔ q) :
    (if classify s.des.stage b = c then s.concludeDes b (desRow c b s.des) else .refused .rowDoesNotApply) =
      if q then exec (.desStep b) s else .refused .rowDoesNotApply := by
  refine if_ctx_congr h (fun hq => ?_) fun _ => rfl
  rw [← h.2 hq]
  rfl

theorem exec_desSeekAccept (b : Byte) (s : State) :
    exec (.desSeekAccept b) s =
      if s.des.stage = .seek ∧ b &&& 0xC0#8 = 0x80#8 then exec (.desStep b) s else .refused .rowDoesNotApply :=
  desRow_eq_desStep s (classify_eq_seekAccept _ _)

theorem exec_desSeekDiscard (b : Byte) (s : State) :
    exec (.desSeekDiscard b) s =
      if s.des.stage = .seek ∧ (b &&& 0x80#8 = 0x00#8 ∨ b &&& 0xC0#8 = 0xC0#8) then exec (.desStep b) s
      else .refused .rowDoesNotApply :=
  desRow_eq_desStep s (classify_eq_seekDiscard _ _)

theorem exec_desSender (b : Byte) (s : State) :
    exec (.desSender b) s = if s.des.stage = .sender then exec (.desStep b) s else .refused .rowDoesNotApply :=
  desRow_eq_desStep s (classify_eq_sender _ _)

theorem exec_desLengthZero (s : State) :
    exec .desLengthZero s = if s.des.stage = .length then exec (.desStep 0x00#8) s else .refused .rowDoesNotApply :=
  desRow_eq_desStep s ((classify_eq_lengthZero _ _).trans (and_iff_left rfl))

theorem exec_desLengthNonzero (b : Byte) (s : State) :
    exec (.desLengthNonzero b) s =
      if s.des.stage = .length ∧ b ≠ 0x00#8 then exec (.desStep b) s else .refused .rowDoesNotApply :=
  desRow_eq_desStep s (classify_eq_lengthNonzero _ _)

theorem exec_desData (b : Byte) (s : State) :
    exec (.desData b) s = if s.des.stage = .data then exec (.desStep b) s else .refused .rowDoesNotApply :=
  desRow_eq_desStep s (classify_eq_data _ _)

theorem exec_desChecksum (b : Byte) (s : State) :
    exec (.desChecksum b) s = if s.des.stage = .checksum then exec (.desStep b) s else .refused .rowDoesNotApply :=
  desRow_eq_desStep s (classify_eq_checksum _ _)

/-! ### A SER-EMIT row completes in its stage -/

theorem senderByte_eq_setWidth (a : Addr) : senderByte a = a.setWidth 8 := by
  revert a
  decide

/-- What acts as SER.NEXT where SER.NEXT has a byte answers the same state, with that byte emitted. -/
theorem completes_as_serNext {i : Instr} {s : State} {r : Ser} {b : Byte} (hrow : exec i s = exec .serNext s)
    (h : serNext s.ser = some (r, some b)) :
    ∃ t, exec i s = .next t ∧ exec .serNext s = .next t ∧ t.ser = r ∧ t.outStream = s.outStream ++ [b] :=
  have hnext := exec_serNext_of_emits h
  ⟨_, hrow.trans hnext, hnext, rfl, rfl⟩

/-! ### The obligations -/

/-- Settles O26: DES.STEP always answers under the hypotheses, and each row is DES.STEP where the stage and the byte are the
row's. -/
theorem desStepRunsTheOneRowOfItsByte : Obligations.DesStepRunsTheOneRowOfItsByte := by
  intro s b hbuf hlt
  obtain ⟨d, r, hstep⟩ := desStep_total b (beq_iff_eq.2 hbuf) hlt
  have hexec := exec_desStep_of_step hstep
  refine ⟨_, hexec, ?_, ?_, ?_, ?_, ?_, ?_, ?_⟩
  · rw [exec_desSeekAccept, hexec]
  · rw [exec_desSeekDiscard, hexec]
  · rw [exec_desSender, hexec]
  · rintro rfl
    rw [exec_desLengthZero, hexec]
  · rw [exec_desLengthNonzero, hexec]
  · rw [exec_desData, hexec]
  · rw [exec_desChecksum, hexec]

/-- Settles O17: each row is SER.NEXT in its stage, where SER.NEXT has the byte of that stage. -/
theorem serRowsActAsSerNext : Obligations.SerRowsActAsSerNext := by
  intro s
  refine ⟨fun h => ?dest, fun h => ?sender, fun h => ?length, fun h hlt => ?data, fun h => ?crc⟩
  case dest =>
    obtain ⟨t, hrow, hnext, hser, hout⟩ :=
      completes_as_serNext ((exec_serNextDest s).trans (if_pos h)) (serNext_of_dest h)
    exact ⟨t, hrow, hnext, by rw [hser], by rw [hout, destByte_eq_or]⟩
  case sender =>
    obtain ⟨t, hrow, hnext, hser, hout⟩ :=
      completes_as_serNext ((exec_serNextSender s).trans (if_pos h)) (serNext_of_sender h)
    exact ⟨t, hrow, hnext, by rw [hser], by rw [hout, senderByte_eq_setWidth]⟩
  case length =>
    obtain ⟨t, hrow, hnext, hser, hout⟩ :=
      completes_as_serNext ((exec_serNextLength s).trans (if_pos h))
        ((serNext_of_length h).trans (congrArg some (serAtLength_eq s.ser)))
    exact ⟨t, hrow, hnext, by rw [hser], hout⟩
  case data =>
    have hbyte : s.ser.pkt.payload.bytes[s.ser.cursor.toNat]? = some _ := List.getElem?_eq_getElem hlt
    obtain ⟨t, hrow, hnext, hser, hout⟩ :=
      completes_as_serNext ((exec_serNextData s).trans (if_pos h))
        ((serNext_of_data h).trans (serAtData_eq_of_get hbyte))
    exact ⟨t, _, hrow, hnext, hbyte, by rw [hser], by rw [hser, toNat_succ_of_lt _ _ (cursor_lt_lengthByte hbyte)],
      by rw [hser], hout⟩
  case crc =>
    obtain ⟨t, hrow, hnext, hser, hout⟩ :=
      completes_as_serNext ((exec_serNextCrc s).trans (if_pos h)) (serNext_of_crc h)
    exact ⟨t, hrow, hnext, by rw [hser], hout⟩

/-- Settles O27: outside its stage a row is its refusal. -/
theorem serRowsRefusedOutsideTheirStage : Obligations.SerRowsRefusedOutsideTheirStage := fun s =>
  ⟨fun h => (exec_serNextDest s).trans (if_neg h), fun h => (exec_serNextSender s).trans (if_neg h),
    fun h => (exec_serNextLength s).trans (if_neg h), fun h => (exec_serNextData s).trans (if_neg h),
    fun h => (exec_serNextCrc s).trans (if_neg h)⟩

end Sys2Proof.Machine
end

section
/-! PROOFS. What every operation records (log 4) and leaves alone (R15), and the invariants of R13 and R14 along every step of
a reachable machine (10_state.md section 2, D15). -/

namespace Sys2Proof.Machine

/-! ### What an operation records -/

/-- `t` has one result more than `s`, the streams have grown by what that result accounts for, `c` being the bytes consumed,
and the queue is as it was. -/
structure Recorded (s t : State) (r : Result) (c : List Byte) : Prop where
  results : t.results = s.results ++ [r]
  outStream : t.outStream = s.outStream ++ r.emitted
  inStream : t.inStream = s.inStream ++ c
  consumed : c.length = r.consumed
  requests : t.requests = s.requests

theorem desRead_count_le {bytes : List Byte} {d d' : Des} {n : Nat} {o : ReadOutcome}
    (h : desRead bytes d = some (d', n, o)) : n ≤ bytes.length := by
  obtain ⟨-, rfl⟩ | ⟨-, -, hle, -⟩ := desRead_result h
  · exact le_rfl
  · exact hle

/-- Every operation that answers a next state records its one result. -/
theorem exec_recorded {i : Instr} {s t : State} (h : exec i s = .next t) : ∃ r c, Recorded s t r c := by
  obtain ⟨-, r, hout, hin, rfl⟩ | ⟨-, P, rfl⟩ | ⟨P, -, -, rfl⟩ | ⟨-, r, b, -, rfl⟩ | ⟨-, rfl⟩ | ⟨-, b, d, r, -, rfl⟩ |
    ⟨bytes, d, n, o, -, hrun, rfl⟩ := exec_cases h
  case inl => exact ⟨r, [], rfl, by simp [hout], by simp, hin.symm, rfl⟩
  case inr.inr.inr.inl => exact ⟨.byte b, [], rfl, rfl, by simp, rfl, rfl⟩
  case inr.inr.inr.inr.inr.inl => exact ⟨.step r, [b], rfl, by simp [Result.emitted], rfl, rfl, rfl⟩
  case inr.inr.inr.inr.inr.inr =>
    exact ⟨.read n o, bytes.take n, rfl, by simp [Result.emitted], rfl, List.length_take_of_le (desRead_count_le hrun), rfl⟩
  all_goals exact ⟨.unit, [], rfl, by simp [Result.emitted], by simp, rfl, rfl⟩

theorem logged_of_recorded {s t : State} {r : Result} {c : List Byte} (hlog : s.Logged) (h : Recorded s t r c) :
    t.Logged := by
  obtain ⟨hout, hin⟩ := hlog
  refine ⟨?_, ?_⟩
  · rw [h.outStream, h.results, hout, List.flatMap_append, List.flatMap_singleton]
  · rw [h.inStream, h.results, List.length_append, hin, h.consumed]
    simp

/-! ### The invariant -/

theorem inv_reset : State.reset.Inv := ⟨.inl ⟨rfl, rfl⟩, rfl, rfl, rfl⟩

/-- The invariant says nothing of the queue. -/
theorem inv_setRequests {s : State} (bs : List Byte) (h : s.Inv) : (s.setRequests bs).Inv := h

/-- Every operation keeps the registers of the unit it works on as R13 or R14 lists them. -/
theorem exec_inv {i : Instr} {s t : State} (hinv : s.Inv) (h : exec i s = .next t) : t.Inv := by
  obtain ⟨hser, hdes, hlog⟩ := hinv
  obtain ⟨r, c, hrec⟩ := exec_recorded h
  have hlog' := logged_of_recorded hlog hrec
  obtain ⟨-, r, -, -, rfl⟩ | ⟨-, P, rfl⟩ | ⟨P, -, -, rfl⟩ | ⟨-, r, b, hnext, rfl⟩ | ⟨-, rfl⟩ | ⟨-, b, d, r, hstep, rfl⟩ |
    ⟨bytes, d, n, o, -, hrun, rfl⟩ := exec_cases h
  · exact ⟨hser, hdes, hlog'⟩
  · exact ⟨.inl ⟨rfl, rfl⟩, hdes, hlog'⟩
  · exact ⟨inv_of_at (at_zero_of_load P) (List.nil_suffix), hdes, hlog'⟩
  · exact ⟨serNext_inv hser hnext, hdes, hlog'⟩
  · exact ⟨hser, rfl, hlog'⟩
  · exact ⟨hser, desStep_inv hdes hstep, hlog'⟩
  · exact ⟨hser, desRead_inv hdes hrun, hlog'⟩

theorem step_inv {s t : State} (hinv : s.Inv) (h : step s = .next t) : t.Inv := by
  obtain hidle | ⟨i, rest, hexec⟩ | ⟨e, hbad⟩ := step_cases s
  · rw [hidle] at h
    cases h
    exact hinv
  · rw [hexec] at h
    exact exec_inv (inv_setRequests rest hinv) h
  · rw [hbad] at h
    cases h

theorem reachable_inv {s : State} (h : Reachable s) : s.Inv := by
  induction h with
  | reset => exact inv_reset
  | issue bs _ ih => exact inv_setRequests _ ih
  | step _ hstep ih => exact step_inv ih hstep

/-! ### Where the invariant holds nothing faults -/

theorem ite_refused_ne_fault {q : Prop} [Decidable q] {o : Host.Outcome State Fault Refusal} {r : Refusal} {f : Fault}
    (h : o ≠ .fault f) : (if q then o else .refused r) ≠ .fault f := by
  split
  · exact h
  · exact nofun

theorem exec_ne_fault {s : State} (hinv : s.Inv) (i : Instr) (f : Fault) : exec i s ≠ .fault f := by
  obtain ⟨hser, hdes, -⟩ := hinv
  have hreg := regular_of_inv hdes
  have hnext : exec .serNext s ≠ .fault f := by
    obtain ⟨r, b, hr⟩ := serNext_total hser
    rw [exec, execSerNext, hr]
    exact nofun
  have hstep : ∀ b, exec (.desStep b) s ≠ .fault f := fun b => by
    obtain ⟨d, r, hd⟩ := desStep_total b hreg.wf hreg.lt
    rw [exec_desStep_of_step hd]
    exact nofun
  cases i with
  | pktConstruct d r p => exact nofun
  | pktDest P => exact nofun
  | pktSrc P => exact nofun
  | pktPayload P => exact nofun
  | serReset => exact nofun
  | desReset => exact nofun
  | serLoad P => exact ite_refused_ne_fault nofun
  | serNext => exact hnext
  | serNextDest => exact exec_serNextDest s ▸ ite_refused_ne_fault hnext
  | serNextSender => exact exec_serNextSender s ▸ ite_refused_ne_fault hnext
  | serNextLength => exact exec_serNextLength s ▸ ite_refused_ne_fault hnext
  | serNextData => exact exec_serNextData s ▸ ite_refused_ne_fault hnext
  | serNextCrc => exact exec_serNextCrc s ▸ ite_refused_ne_fault hnext
  | desStep b => exact hstep b
  | desRead bytes =>
    obtain ⟨d, n, o, hrun⟩ := desRead_total bytes hreg
    rw [exec_desRead_of_run hrun]
    exact nofun
  | desSeekAccept b => exact exec_desSeekAccept b s ▸ ite_refused_ne_fault (hstep b)
  | desSeekDiscard b => exact exec_desSeekDiscard b s ▸ ite_refused_ne_fault (hstep b)
  | desSender b => exact exec_desSender b s ▸ ite_refused_ne_fault (hstep b)
  | desLengthZero => exact exec_desLengthZero s ▸ ite_refused_ne_fault (hstep _)
  | desLengthNonzero b => exact exec_desLengthNonzero b s ▸ ite_refused_ne_fault (hstep b)
  | desData b => exact exec_desData b s ▸ ite_refused_ne_fault (hstep b)
  | desChecksum b => exact exec_desChecksum b s ▸ ite_refused_ne_fault (hstep b)

theorem step_ne_fault {s : State} (hinv : s.Inv) (f : Fault) : step s ≠ .fault f := by
  obtain hidle | ⟨i, rest, hexec⟩ | ⟨e, hbad⟩ := step_cases s
  · rw [hidle]
    exact nofun
  · rw [hexec]
    exact exec_ne_fault (inv_setRequests rest hinv) i f
  · rw [hbad]
    exact nofun

/-! ### The obligations -/

/-- Settles O50: an idle step leaves the state, and any other step is an operation. -/
theorem everyStepKeepsTheInvariant : Obligations.EveryStepKeepsTheInvariant := fun _ _ => step_inv

/-- Settles O51, by induction on how the state was reached. -/
theorem reachableStatesNeverFault : Obligations.ReachableStatesNeverFault := fun _ h =>
  ⟨reachable_inv h, step_ne_fault (reachable_inv h)⟩

/-- Settles O49: reset registers are those of the first alternative of DONE and of SEEK, and nothing is recorded. -/
theorem invariantAtReset : Obligations.InvariantAtReset := inv_reset

/-- Settles O48: `State.reset` is built from these values. -/
theorem resetRegistersAsListed : Obligations.ResetRegistersAsListed := ⟨rfl, rfl, rfl, rfl⟩

/-- Settles O47: the recorded result says by what the streams have grown; of the operations only SER.RESET counts a draw. -/
theorem everyOperationReturnsOneResult : Obligations.EveryOperationReturnsOneResult := by
  intro i s t h
  obtain ⟨r, c, hrec⟩ := exec_recorded h
  refine ⟨⟨r, hrec.results⟩, hrec.requests, ⟨_, hrec.outStream.symm⟩, ⟨_, hrec.inStream.symm⟩, fun hne => ?_⟩
  obtain ⟨-, r, -, -, rfl⟩ | ⟨hi, -⟩ | ⟨P, -, -, rfl⟩ | ⟨-, r, b, -, rfl⟩ | ⟨-, rfl⟩ | ⟨-, b, d, r, -, rfl⟩ |
    ⟨bytes, d, n, o, -, -, rfl⟩ := exec_cases h
  case inr.inl => exact absurd hi hne
  all_goals rfl

/-- Settles O44: the family of an operation says which of the changes listed by `exec_cases` it can have made. -/
theorem unitsDoNotTouchEachOther : Obligations.UnitsDoNotTouchEachOther := by
  intro i s t h
  obtain ⟨hf, r, -, -, rfl⟩ | ⟨rfl, P, rfl⟩ | ⟨P, rfl, -, rfl⟩ | ⟨hi, r, b, -, rfl⟩ | ⟨rfl, rfl⟩ | ⟨hf, b, d, r, -, rfl⟩ |
    ⟨bytes, d, n, o, rfl, -, rfl⟩ := exec_cases h
  case inl => simp [hf]
  case inr.inr.inr.inl =>
    have hf : i.family = .ser := by obtain rfl | rfl | rfl | rfl | rfl | rfl := hi <;> rfl
    simp [hf]
  case inr.inr.inr.inr.inr.inl => simp [hf]
  all_goals simp [Instr.family]

/-- Settles O45: each reset answers, and writes the registers of its own unit alone. -/
theorem resetOfOneUnitLeavesTheOther : Obligations.ResetOfOneUnitLeavesTheOther := fun _ =>
  ⟨⟨_, rfl, rfl, rfl⟩, ⟨_, rfl, rfl, rfl, rfl⟩⟩

end Sys2Proof.Machine
end

section
/-! PROOFS. DES.READ on parts, on streams and on damaged frames (42_deserializer.md section 4; 43_properties.md: chunking,
successive frames, checksum sensitivity, what the checksum does not catch). -/

namespace Sys2Proof.Machine

/-! ### Chunks -/

/-- A run keeps the store discipline and the cursor column of R14. -/
theorem desRead_regular {bytes : List Byte} {d d' : Des} {n : Nat} {o : ReadOutcome} (hreg : Regular d)
    (h : desRead bytes d = some (d', n, o)) : Regular d' := by
  induction bytes generalizing d n with
  | nil =>
    cases h
    exact hreg
  | cons b bs ih =>
    obtain ⟨d₁, r, hstep⟩ := desStep_total b hreg.wf hreg.lt
    have hreg₁ := desStep_regular hreg hstep
    obtain rfl | ⟨-, -, ⟨P, rfl⟩ | rfl⟩ := desStep_result hstep
    · obtain ⟨d₂, m, q, hrun⟩ := desRead_total bs hreg₁
      rw [desRead_cons_cont hstep, hrun, after_some] at h
      cases h
      exact ih hreg₁ hrun
    · rw [desRead_cons_packet hstep] at h
      cases h
      exact hreg₁
    · rw [desRead_cons_error hstep] at h
      cases h
      exact hreg₁

/-- Input that has its outcome only at its last byte is read in two parts: the first is silent and the second has the
outcome. -/
theorem desRead_split {xs ys : List Byte} {d d' : Des} {o : ReadOutcome} (hreg : Regular d) (hys : ys ≠ [])
    (h : desRead (xs ++ ys) d = some (d', (xs ++ ys).length, o)) :
    ∃ e, Regular e ∧ desRead xs d = some (e, xs.length, .noPacketYet) ∧ desRead ys e = some (d', ys.length, o) := by
  have hlt : xs.length < (xs ++ ys).length := by
    have := List.length_pos_of_ne_nil hys
    rw [List.length_append]
    omega
  obtain ⟨e, hxs⟩ := desRead_take_of_ends_at_last hreg h hlt
  rw [List.take_left] at hxs
  have hrege := desRead_regular hreg hxs
  obtain ⟨d₂, m, q, hrest⟩ := desRead_total ys hrege
  rw [desRead_append_of_none_yet hxs, hrest, after_some, List.length_append] at h
  simp only [Option.some.injEq, Prod.mk.injEq, Nat.add_left_cancel_iff] at h
  obtain ⟨rfl, rfl, rfl⟩ := h
  exact ⟨e, hrege, hxs, hrest⟩

/-- Such input, cut into chunks in any way: each chunk before the last is silent and the last has the outcome. -/
theorem runOps_chunks {chunks : List (List Byte)} {last : List Byte} {s : State} {d : Des} {o : ReadOutcome}
    (hreg : Regular s.des) (hlast : last ≠ [])
    (h : desRead (chunks.flatten ++ last) s.des = some (d, (chunks.flatten ++ last).length, o)) :
    runOps (chunks.map .desRead ++ [.desRead last]) s = .next { s with
      des := d
      inStream := s.inStream ++ (chunks.flatten ++ last)
      results := s.results ++ chunks.map (fun g => .read g.length .noPacketYet) ++ [.read last.length o] } := by
  induction chunks generalizing s with
  | nil =>
    have hexec := exec_desRead_of_run h
    simp only [List.flatten_nil, List.nil_append, List.take_length] at hexec
    simp [runOps, hexec]
  | cons g gs ih =>
    rw [List.flatten_cons, List.append_assoc] at h
    obtain ⟨e, hrege, hg, hrest⟩ := desRead_split hreg (List.append_ne_nil_of_right_ne_nil _ hlast) h
    have hexec := exec_desRead_of_run hg
    rw [List.take_length] at hexec
    simp only [List.map_cons, List.cons_append, runOps, hexec]
    rw [ih hrege hrest]
    simp

/-! ### The host's loop over a stream -/

/-- What a frame body of `P` with the byte `c` behind it delivers (R107). -/
def verdict (P : Packet) (c : Byte) : ReadOutcome := if c = xorAll (frameBody P) then .packet P else .error .badCRC

/-- A read that starts at a frame body has its outcome at the byte behind it. -/
theorem desRead_frameBody (P : Packet) (c : Byte) (rest : List Byte) :
    desRead (frameBody P ++ c :: rest) Des.reset = some (Des.reset, 4 + P.len, verdict P c) := by
  have hshape := desRead_shape (senderByte P.src) c P.payload rest (isStart_destByte P.dest)
  rwa [low6_destByte, low6_senderByte] at hshape

/-- Every frame body has a verdict, so the host records one for it. -/
theorem recorded_verdict (P : Packet) (c : Byte) : recorded (verdict P c) = [verdict P c] := by
  unfold verdict
  split <;> rfl

/-- What the host sends for one item of a stream: noise, a Packet's frame body and a checksum byte. -/
def itemBytes (it : List Byte × Packet × Byte) : List Byte := it.1 ++ frameBody it.2.1 ++ [it.2.2]

theorem length_itemBytes (it : List Byte × Packet × Byte) : (itemBytes it).length = it.1.length + (4 + it.2.1.len) := by
  simp only [itemBytes, List.length_append, length_frameBody, List.length_singleton]
  omega

/-- A read that starts at an item reports it and stops behind it. -/
theorem desRead_item {it : List Byte × Packet × Byte} (rest : List Byte) (hz : ∀ b ∈ it.1, isStart b = false) :
    desRead (itemBytes it ++ rest) Des.reset =
      some (Des.reset, (itemBytes it).length, verdict it.2.1 it.2.2) := by
  have hbytes : itemBytes it ++ rest = it.1 ++ (frameBody it.2.1 ++ it.2.2 :: rest) := by simp [itemBytes]
  rw [hbytes, length_itemBytes]
  exact desRead_noise_append rfl hz (desRead_frameBody it.2.1 it.2.2 rest)

theorem drain_succ_of_read {n k : Nat} {bytes : List Byte} {s t : State} {o : ReadOutcome} (hne : bytes ≠ [])
    (hexec : exec (.desRead bytes) s = .next t) (hres : t.results = s.results ++ [.read k o]) :
    drain (n + 1) bytes s = (drain n (bytes.drop k) t).map (fun r => (recorded o ++ r.1, r.2)) := by
  cases bytes with
  | nil => exact absurd rfl hne
  | cons b bs => simp only [drain, issue_of_exec hexec hres]

/-- One read per item is enough. -/
theorem drain_items {items : List (List Byte × Packet × Byte)} {s : State} (hs : s.des = Des.reset)
    (hz : ∀ it ∈ items, ∀ b ∈ it.1, isStart b = false) :
    drain items.length (items.flatMap itemBytes) s = some (items.map (fun it => verdict it.2.1 it.2.2), { s with
      inStream := s.inStream ++ items.flatMap itemBytes
      results := s.results ++
        items.map (fun it => .read (it.1.length + (4 + it.2.1.len)) (verdict it.2.1 it.2.2)) }) := by
  induction items generalizing s with
  | nil => simp [drain]
  | cons it items ih =>
    have hrun := desRead_item (items.flatMap itemBytes) (hz it List.mem_cons_self)
    rw [← hs] at hrun
    have hexec := exec_desRead_of_run hrun
    rw [List.take_left] at hexec
    have hne : itemBytes it ++ items.flatMap itemBytes ≠ [] := by simp [itemBytes]
    rw [List.flatMap_cons, List.length_cons, drain_succ_of_read hne hexec rfl, List.drop_left, ih]
    · simp [recorded_verdict, length_itemBytes]
    · exact hs
    · exact fun x hx => hz x (List.mem_cons_of_mem _ hx)

theorem length_le_length_flatMap_itemBytes (items : List (List Byte × Packet × Byte)) :
    items.length ≤ (items.flatMap itemBytes).length := by
  induction items with
  | nil => exact le_rfl
  | cons it items ih =>
    rw [List.flatMap_cons, List.length_cons, List.length_append, length_itemBytes]
    omega

/-- Noise is what is no start byte (R54). -/
theorem isStart_eq_false_iff (b : Byte) : isStart b = false ↔ b &&& 0xC0#8 ≠ 0x80#8 := by
  rw [← Bool.not_eq_true, isStart_iff]

/-! ### The obligations on whole and cut input -/

/-- Settles O36: the frame has its outcome at its last byte, so it may be cut anywhere before. -/
theorem frameInChunksDeliversThePacket : Obligations.FrameInChunksDeliversThePacket := by
  intro P s chunks last hs hcut hlast
  have hrun := desRead_frame P
  rw [← hs, ← hcut] at hrun
  rw [runOps_chunks (hs ▸ regular_reset) hlast hrun, hcut]

/-- Settles O41: each read reports one item, and the host's loop has at least as many reads as there are items. -/
theorem successiveFramesAreAllReported : Obligations.SuccessiveFramesAreAllReported := by
  intro items s hs hz
  have hnoise : ∀ it ∈ items, ∀ b ∈ it.1, isStart b = false := fun it hit b hb =>
    (isStart_eq_false_iff b).2 (hz it hit b hb)
  exact drain_le (length_le_length_flatMap_itemBytes items) (drain_items hs hnoise)

/-- Settles O35: a run that found a frame ignores what follows, and any other run is continued by the next one. -/
theorem readsComposeAcrossChunks : Obligations.ReadsComposeAcrossChunks := by
  intro s t xs ys n o hxs hres
  obtain ⟨d, n', o', hrun, rfl⟩ := exec_desRead_next.1 hxs
  obtain ⟨rfl, rfl⟩ : n' = n ∧ o' = o := by simpa using hres
  refine ⟨fun ho => ?found, ?silent⟩
  case found =>
    rw [exec_desRead_of_run (desRead_append_of_outcome hrun ho), List.take_append_of_le_length (desRead_count_le hrun)]
  case silent =>
    rintro rfl u m q hys hures
    obtain ⟨e, m', q', hrest, rfl⟩ := exec_desRead_next.1 hys
    obtain ⟨rfl, rfl⟩ : m' = m ∧ q' = q := by simpa using hures
    obtain ⟨hn, -, -⟩ := desRead_count hrun
    obtain rfl := hn rfl
    have hwhole : desRead (xs ++ ys) s.des = some (e, xs.length + m', q') := by
      rw [desRead_append_of_none_yet hrun, hrest, after_some]
    rw [exec_desRead_of_run hwhole, List.take_length_add_append]
    simp

/-- Settles O33: the whole state after reading bytes of the shape of a frame, with the masks as the low six bits. -/
theorem desReadsAnyBytesOfFrameShape : Obligations.DesReadsAnyBytesOfFrameShape := by
  intro s b0 b1 c p rest hs hstart
  have hexec := exec_desRead_shape b1 c p rest hs ((isStart_iff b0).2 hstart)
  rwa [low6_eq, low6_eq] at hexec

/-- Settles O30: the run of no bytes takes nothing. -/
theorem desReadOfNothingChangesNothing : Obligations.DesReadOfNothingChangesNothing := by
  intro s
  rw [exec_desRead_of_run (desRead_nil s.des), List.take_zero, List.append_nil]

/-- Settles O32: the only error a step or a run on the registers gives is BadCRC. -/
theorem desNeverReportsAddressErrors : Obligations.DesNeverReportsAddressErrors := by
  refine fun s t => ⟨fun b e hexec hres => ?step, fun bytes n e hexec hres => ?read⟩
  case step =>
    obtain ⟨d, r, hstep, rfl⟩ := exec_desStep_next.1 hexec
    obtain rfl : r = .error e := by simpa using hres
    have hresult := desStep_result hstep
    simp only [reduceCtorEq, exists_false, false_or, StepResult.error.injEq] at hresult
    exact hresult.2.2
  case read =>
    obtain ⟨d, n', o, hrun, rfl⟩ := exec_desRead_next.1 hexec
    obtain ⟨rfl, rfl⟩ : n' = n ∧ o = .error e := by simpa using hres
    have hresult := desRead_result hrun
    simp only [reduceCtorEq, false_and, exists_false, false_or, ReadOutcome.error.injEq] at hresult
    exact hresult.1

/-- Settles O46: the run depends on the registers alone, and its count and outcome are the new result. -/
theorem readDependsOnTheDeserializerAlone : Obligations.ReadDependsOnTheDeserializerAlone := by
  intro s s' t bytes hdes hexec
  obtain ⟨d, n, o, hrun, rfl⟩ := exec_desRead_next.1 hexec
  rw [hdes] at hrun
  exact ⟨_, .read n o, exec_desRead_of_run hrun, rfl, rfl, rfl⟩

end Sys2Proof.Machine
end

section
/-! PROOFS. What the checksum catches and what it does not (43_properties.md): a frame XORs to zero, so one flipped bit shows
wherever the flip leaves the bytes in the shape of a frame; a wrong length byte and a lost start mark change the shape. -/

namespace Sys2Proof.Machine

/-! ### The XOR of a frame -/

theorem xorAll_frame (P : Packet) : xorAll (frame P) = 0#8 := by
  rw [frame, xorAll_snoc, BitVec.xor_self]

theorem frame_injective {P Q : Packet} (h : frame P = frame Q) : P = Q := by
  simp only [frame_eq, List.cons.injEq] at h
  obtain ⟨hdest, hsrc, -, hrest⟩ := h
  have hd : P.dest = Q.dest := by rw [← low6_destByte P.dest, hdest, low6_destByte]
  have hs : P.src = Q.src := by rw [← low6_senderByte P.src, hsrc, low6_senderByte]
  have hp : P.payload = Q.payload := Payload.ext_bytes (List.append_inj' hrest rfl).1
  cases P
  cases Q
  simp_all

/-- Changing one byte of a sum by `m` changes the sum by `m`. -/
theorem xorAll_modify {bytes : List Byte} {k : Nat} (m : Byte) (hk : k < bytes.length) :
    xorAll (bytes.modify k (· ^^^ m)) = xorAll bytes ^^^ m := by
  induction bytes generalizing k with
  | nil => exact absurd hk (Nat.not_lt_zero k)
  | cons b bs ih =>
    cases k with
    | zero =>
      rw [List.modify_zero_cons, xorAll_cons, xorAll_cons, BitVec.xor_assoc, BitVec.xor_comm m, BitVec.xor_assoc]
    | succ k => rw [List.modify_succ_cons, xorAll_cons, ih (Nat.lt_of_succ_lt_succ hk), xorAll_cons, BitVec.xor_assoc]

/-! ### Damaged bytes that still have the shape of a frame -/

theorem lengthByte_of_length {p : Payload} {n : Byte} (h : p.bytes.length = n.toNat) : lengthByte p = n := by
  rw [lengthByte, h, BitVec.ofNat_toNat, BitVec.setWidth_eq]

/-- Bytes as long as a frame of `P` with the length byte of `P` are split as a frame is. -/
theorem exists_shape {bytes : List Byte} {P : Packet} (hlen : bytes.length = 4 + P.len)
    (h2 : bytes[2]? = some (lengthByte P.payload)) :
    ∃ b0 b1 c p, bytes = b0 :: b1 :: lengthByte p :: (p.bytes ++ [c]) ∧ p.bytes.length = P.len := by
  match bytes with
  | b0 :: b1 :: b2 :: rest =>
    have hrest : rest.length = P.len + 1 := by
      simp only [List.length_cons] at hlen
      omega
    have hne : rest ≠ [] := List.ne_nil_of_length_eq_add_one hrest
    have hinit : rest.dropLast.length = P.len := by rw [List.length_dropLast, hrest, Nat.add_sub_cancel]
    obtain ⟨p, hp⟩ : ∃ p : Payload, p.bytes = rest.dropLast := ⟨⟨_, hinit ▸ P.payload.bound⟩, rfl⟩
    have hb2 : b2 = lengthByte P.payload := by simpa using h2
    have hn : lengthByte p = b2 := lengthByte_of_length (by rw [hp, hinit, hb2, toNat_lengthByte])
    exact ⟨b0, b1, rest.getLast hne, p, by rw [hn, hp, List.dropLast_append_getLast], hp ▸ hinit⟩
  | [] | [_] | [_, _] =>
    simp only [List.length_cons, List.length_nil] at hlen
    omega

/-- Such bytes behind a start byte are refused if they do not XOR to zero: the last byte is not the sum of the others. -/
theorem desRead_of_xorAll_ne_zero {bytes : List Byte} {P : Packet} {b0 : Byte} (hlen : bytes.length = 4 + P.len)
    (h0 : bytes[0]? = some b0) (hstart : isStart b0 = true) (h2 : bytes[2]? = some (lengthByte P.payload))
    (hx : xorAll bytes ≠ 0#8) :
    desRead bytes Des.reset = some (Des.reset, 4 + P.len, .error .badCRC) := by
  obtain ⟨b, b1, c, p, rfl, hp⟩ := exists_shape hlen h2
  obtain rfl : b = b0 := by simpa using h0
  have hc : ¬ c = xorAll (b :: b1 :: lengthByte p :: p.bytes) := by
    rintro rfl
    exact hx ((xorAll_snoc (b :: b1 :: lengthByte p :: p.bytes) _).trans BitVec.xor_self)
  rw [desRead_shape b1 c p [] hstart, if_neg hc, hp]

/-! ### One flipped bit -/

/-- The frame of `P` with bit `j` of byte `k` flipped. -/
def flipped (P : Packet) (k j : Nat) : List Byte := (frame P).modify k (· ^^^ (1#8 <<< j))

@[simp] theorem length_flipped (P : Packet) (k j : Nat) : (flipped P k j).length = 4 + P.len := by
  rw [flipped, List.length_modify, length_frame]

theorem flipped_getElem?_ne (P : Packet) (j : Nat) {k i : Nat} (h : k ≠ i) : (flipped P k j)[i]? = (frame P)[i]? :=
  List.getElem?_modify_ne _ _ h

theorem flipped_zero (P : Packet) (j : Nat) :
    flipped P 0 j = (destByte P.dest ^^^ (1#8 <<< j)) :: (frame P).tail := rfl

theorem flipped_two (P : Packet) (j : Nat) :
    flipped P 2 j = (frame P).set 2 (lengthByte P.payload ^^^ (1#8 <<< j)) := rfl

theorem bit_ne_zero {j : Nat} (h : j < 8) : 1#8 <<< j ≠ 0#8 := by
  revert j
  decide

theorem xorAll_flipped_ne_zero {P : Packet} {k j : Nat} (hk : k < 4 + P.len) (hj : j < 8) :
    xorAll (flipped P k j) ≠ 0#8 := by
  rw [flipped, xorAll_modify _ (by rwa [length_frame]), xorAll_frame, BitVec.zero_xor]
  exact bit_ne_zero hj

/-- The start mark is bits 7 and 6 of the destination byte; a flip of one of them loses it. -/
theorem isStart_destByte_flip (a : Addr) {j : Nat} (h : j < 8) :
    isStart (destByte a ^^^ (1#8 <<< j)) = decide (j < 6) := by
  revert a
  revert j
  decide

/-- A flip that leaves the start mark and the length byte alone is caught (D20). -/
theorem desRead_flipped_of_shape {P : Packet} {k j : Nat} (hj : j < 8)
    (hk : (k = 0 ∧ j < 6) ∨ k = 1 ∨ (3 ≤ k ∧ k < 4 + P.len)) :
    desRead (flipped P k j) Des.reset = some (Des.reset, 4 + P.len, .error .badCRC) := by
  have hlt : k < 4 + P.len := by omega
  have h2 : (flipped P k j)[2]? = some (lengthByte P.payload) := flipped_getElem?_ne P j (by omega)
  have h0 : ∃ b0, (flipped P k j)[0]? = some b0 ∧ isStart b0 = true := by
    by_cases hzero : k = 0
    · subst hzero
      have hj6 : j < 6 := by omega
      exact ⟨_, rfl, by rw [isStart_destByte_flip _ hj, decide_eq_true hj6]⟩
    · exact ⟨_, flipped_getElem?_ne P j hzero, isStart_destByte P.dest⟩
  obtain ⟨b0, hb0, hstart⟩ := h0
  exact desRead_of_xorAll_ne_zero (length_flipped P k j) hb0 hstart h2 (xorAll_flipped_ne_zero hlt hj)

/-! ### A wrong length byte -/

/-- A larger length takes the checksum for a payload byte and waits for more. -/
theorem desRead_longer {P : Packet} {n : Byte} (h : P.len < n.toNat) :
    ∃ d, desRead ((frame P).set 2 n) Des.reset = some (d, 4 + P.len, .noPacketYet) := by
  have hn : ¬ n = 0#8 := by
    rintro rfl
    exact absurd h (Nat.not_lt_zero _)
  have hdata := desRead_data (bs := P.payload.bytes ++ [xorAll (frameBody P)])
    (d := headed (destByte P.dest) (senderByte P.src) n) (if_neg hn) rfl (Nat.zero_lt_of_lt h)
    (by simpa [headed] using h)
  have hrun := desRead_append_of_none_yet (ys := P.payload.bytes ++ [xorAll (frameBody P)])
    (desRead_header (senderByte P.src) n (isStart_destByte P.dest))
  rw [hdata, after_some] at hrun
  have hcount : [destByte P.dest, senderByte P.src, n].length + (P.payload.bytes ++ [xorAll (frameBody P)]).length =
      4 + P.len := by
    simp only [List.length_cons, List.length_nil, List.length_append, Packet.len]
    omega
  rw [hcount] at hrun
  exact ⟨_, hrun⟩

/-- With a smaller length the byte behind the shortened payload stands where the checksum should, the rest behind it. -/
theorem set_length_eq_shape {P : Packet} {n c : Byte} {p : Payload} (h : n.toNat < P.len)
    (hp : p.bytes = P.payload.bytes.take n.toNat) (hc : P.payload.bytes[n.toNat]? = some c) :
    (frame P).set 2 n = destByte P.dest :: senderByte P.src :: lengthByte p ::
      (p.bytes ++ c :: (P.payload.bytes.drop (n.toNat + 1) ++ [xorAll (frameBody P)])) := by
  have hlen : p.bytes.length = n.toNat := by rw [hp, List.length_take_of_le h.le]
  have hn : lengthByte p = n := lengthByte_of_length hlen
  obtain ⟨hlt, rfl⟩ := List.getElem?_eq_some_iff.1 hc
  have hsplit : P.payload.bytes = p.bytes ++ P.payload.bytes[n.toNat] :: P.payload.bytes.drop (n.toNat + 1) := by
    rw [hp, ← List.drop_eq_getElem_cons hlt, List.take_append_drop]
  rw [hn, frame_eq]
  simp only [List.set_cons_succ, List.set_cons_zero, List.cons.injEq, true_and]
  rw [← List.cons_append, ← List.append_assoc, ← hsplit]

/-! ### A lost start mark -/

/-- How many header bytes are in when the Deserializer waits at a stage. -/
def DesStage.place : DesStage → Nat
  | .seek => 0
  | .sender => 1
  | .length => 2
  | .data => 3
  | .checksum => 3

theorem DesStage.place_payload (q : Prop) [Decidable q] : (if q then checksum else data).place = 3 := by
  split <;> rfl

/-- How many bytes of a frame the Deserializer has taken: the header bytes and the buffered ones. -/
def held (d : Des) : Nat := d.stage.place + d.buf.length

/-- A byte that goes on with the frame adds at most one. -/
theorem desStep_held {b : Byte} {d d' : Des} (hreg : Regular d) (h : desStep b d = some (d', .cont)) :
    held d' ≤ held d + 1 := by
  cases hs : d.stage
  case seek =>
    rw [desStep_seek hs] at h
    cases h
    split
    · simp only [held, hs, DesStage.place]
      omega
    · exact Nat.le_succ _
  case sender =>
    rw [desStep_sender hs] at h
    cases h
    simp only [held, hs, desSender, DesStage.place]
    omega
  case length =>
    rw [desStep_length hs] at h
    cases h
    simp only [held, hs, DesStage.place_payload]
    simp only [DesStage.place]
    omega
  case data =>
    rw [desStep_data_of_wf hs hreg.wf (hreg.lt hs)] at h
    cases h
    simp only [held, hs, DesStage.place_payload]
    simp only [DesStage.place, List.length_append, List.length_singleton]
    omega
  case checksum =>
    obtain ⟨p, hp⟩ := exists_payload_of_wf hreg.wf
    rw [desStep_checksum_of_wf p hs hp hreg.wf] at h
    split at h <;> cases h

/-- A Packet is delivered on the byte behind its header and payload. -/
theorem desStep_packet_held {b : Byte} {d d' : Des} {Q : Packet} (hreg : Regular d)
    (h : desStep b d = some (d', .packet Q)) : held d = 3 + Q.len := by
  have hs : d.stage = .checksum := by
    obtain hcont | ⟨-, hs, -⟩ := desStep_result h
    · cases hcont
    · exact hs
  obtain ⟨p, hp⟩ := exists_payload_of_wf hreg.wf
  rw [desStep_checksum_of_wf p hs hp hreg.wf] at h
  split at h
  · cases h
    rw [held, hs, ← hp]
    rfl
  · cases h

/-- No Packet comes out of fewer bytes than its frame has. -/
theorem desRead_packet_count {bytes : List Byte} {d d' : Des} {n : Nat} {Q : Packet} (hreg : Regular d)
    (h : desRead bytes d = some (d', n, .packet Q)) : 4 + Q.len ≤ n + held d := by
  induction bytes generalizing d n with
  | nil => cases h
  | cons b bs ih =>
    obtain ⟨d₁, r, hstep⟩ := desStep_total b hreg.wf hreg.lt
    have hreg₁ := desStep_regular hreg hstep
    obtain rfl | ⟨-, -, ⟨P, rfl⟩ | rfl⟩ := desStep_result hstep
    · obtain ⟨d₂, m, q, hrun⟩ := desRead_total bs hreg₁
      rw [desRead_cons_cont hstep, hrun, after_some] at h
      cases h
      have hrest := ih hreg₁ hrun
      have hheld := desStep_held hreg hstep
      omega
    · have hheld := desStep_packet_held hreg hstep
      rw [desRead_cons_packet hstep] at h
      cases h
      omega
    · rw [desRead_cons_error hstep] at h
      cases h

/-- Fewer bytes than the frame of `P` has do not deliver `P`. -/
theorem desRead_ne_packet_of_short {bytes : List Byte} {d : Des} {n : Nat} {o : ReadOutcome} {P : Packet}
    (hlen : bytes.length < 4 + P.len) (h : desRead bytes Des.reset = some (d, n, o)) : o ≠ .packet P := by
  rintro rfl
  have hcount : 4 + P.len ≤ n + 0 := desRead_packet_count regular_reset h
  have hle := desRead_count_le h
  omega

/-! ### Another order -/

/-- The sum of a frame body does not see the order of the payload (R126). -/
theorem xorAll_frameBody_of_perm {P Q : Packet} (hdest : Q.dest = P.dest) (hsrc : Q.src = P.src)
    (hperm : Q.payload.bytes.Perm P.payload.bytes) : xorAll (frameBody P) = xorAll (frameBody Q) := by
  have hlen : lengthByte Q.payload = lengthByte P.payload := congrArg (BitVec.ofNat 8) hperm.length_eq
  rw [frameBody, frameBody, hdest, hsrc, hlen]
  exact xorAll_perm (((hperm.symm.cons _).cons _).cons _)

/-! ### No flip delivers the original -/

/-- Without the start mark the first byte is noise, and what is left is shorter than the frame. -/
theorem desRead_flipped_mark {P : Packet} {j : Nat} (hj : j < 8) (hmark : ¬ j < 6) :
    ∃ d n o, desRead (flipped P 0 j) Des.reset = some (d, n, o) ∧ o ≠ .packet P := by
  have hnoise : isStart (destByte P.dest ^^^ (1#8 <<< j)) = false := by
    rw [isStart_destByte_flip _ hj, decide_eq_false hmark]
  obtain ⟨d, n, o, hrun⟩ := desRead_total (frame P).tail regular_reset
  refine ⟨d, 1 + n, o, ?_, desRead_ne_packet_of_short ?_ hrun⟩
  · rw [flipped_zero, desRead_cons_cont (desStep_seek_noise rfl hnoise), hrun, after_some]
  · rw [List.length_tail, length_frame]
    omega

/-- With another length byte the read ends silent or with another payload. -/
theorem desRead_wrong_length {P : Packet} {n : Byte} (hn : n ≠ lengthByte P.payload) :
    ∃ d m o, desRead ((frame P).set 2 n) Des.reset = some (d, m, o) ∧ o ≠ .packet P := by
  have hne : n.toNat ≠ P.len := fun h => hn (by rw [← BitVec.toNat_inj, toNat_lengthByte, h])
  obtain hgt | hlt := Nat.lt_or_gt_of_ne hne.symm
  · obtain ⟨d, hrun⟩ := desRead_longer hgt
    exact ⟨d, _, _, hrun, nofun⟩
  · have hbound : (P.payload.bytes.take n.toNat).length ≤ Config.maxPayload :=
      (List.length_take_le' _ _).trans P.payload.bound
    have hshape := set_length_eq_shape (p := ⟨P.payload.bytes.take n.toNat, hbound⟩) hlt rfl (List.getElem?_eq_getElem hlt)
    refine ⟨_, _, _, hshape ▸ desRead_shape _ _ _ _ (isStart_destByte P.dest), ?_⟩
    split
    · intro h
      have hlen := congrArg Packet.len (ReadOutcome.packet.inj h)
      exact hne ((List.length_take_of_le hlt.le).symm.trans hlen)
    · exact nofun

/-! ### The obligations -/

/-- Settles O7: the last byte of a frame is the sum of the others, and every field of the Packet can be read off the frame. -/
theorem frameXorsToZeroAndIsInjective : Obligations.FrameXorsToZeroAndIsInjective :=
  ⟨xorAll_frame, fun _ _ => frame_injective⟩

/-- Settles O37: the flipped frame has the shape of a frame and does not XOR to zero. -/
theorem singleBitFlipsReportBadCrc : Obligations.SingleBitFlipsReportBadCrc := by
  intro P s k j hs hj hk
  have hrun := desRead_flipped_of_shape hj hk
  rw [← length_flipped P k j, ← hs] at hrun
  have hexec := exec_desRead_of_full_run hrun
  rwa [length_flipped] at hexec

/-- Settles O38: a larger length leaves the whole frame inside the payload, a smaller one is a shorter frame shape with the
rest behind it. -/
theorem wrongLengthByteMisplacesTheChecksum : Obligations.WrongLengthByteMisplacesTheChecksum := by
  refine fun P s n hs => ⟨fun hgt => ?larger, fun hlt p c hp hc => ?smaller⟩
  case larger =>
    obtain ⟨d, hrun⟩ := desRead_longer hgt
    have hall : ((frame P).set 2 n).length = 4 + P.len := by rw [List.length_set, length_frame]
    rw [← hs] at hrun
    exact ⟨d, by rw [exec_desRead_of_run hrun, ← hall, List.take_length]⟩
  case smaller =>
    have hlen : p.bytes.length = n.toNat := by rw [hp, List.length_take_of_le hlt.le]
    have hn : lengthByte p = n := lengthByte_of_length hlen
    have hexec := exec_desRead_shape (senderByte P.src) c p (P.payload.bytes.drop (n.toNat + 1) ++ [xorAll (frameBody P)])
      hs (isStart_destByte P.dest)
    rw [← set_length_eq_shape hlt hp hc, low6_destByte, low6_senderByte, hlen, hn] at hexec
    exact ⟨_, hexec, hs, rfl⟩

/-- Settles O39: a flip in the start mark, in the length byte, or anywhere else, where it is caught. -/
theorem noSingleBitFlipDeliversTheOriginal : Obligations.NoSingleBitFlipDeliversTheOriginal := by
  intro P s k j hs hk hj
  have hrun : ∃ d n o, desRead (flipped P k j) Des.reset = some (d, n, o) ∧ o ≠ .packet P := by
    by_cases hmark : k = 0 ∧ ¬ j < 6
    · obtain ⟨rfl, hj6⟩ := hmark
      exact desRead_flipped_mark hj hj6
    · by_cases hlength : k = 2
      · subst hlength
        rw [flipped_two]
        exact desRead_wrong_length (by simpa using bit_ne_zero hj)
      · exact ⟨_, _, _, desRead_flipped_of_shape hj (by omega), nofun⟩
  obtain ⟨d, n, o, hread, hne⟩ := hrun
  rw [← hs] at hread
  exact ⟨_, n, o, exec_desRead_of_run hread, rfl, hne⟩

/-- Settles O43: the two frame bodies are permutations of each other, and the sum does not see the order. -/
theorem reorderedPayloadIsNotDetected : Obligations.ReorderedPayloadIsNotDetected := by
  intro P Q s hs hdest hsrc hperm
  have hrun := desRead_frameBody Q (xorAll (frameBody P)) []
  have hlen : (frameBody Q ++ [xorAll (frameBody P)]).length = 4 + Q.len := by
    rw [List.length_append, length_frameBody, List.length_singleton]
    omega
  rw [verdict, if_pos (xorAll_frameBody_of_perm hdest hsrc hperm), ← hlen, ← hs] at hrun
  rw [exec_desRead_of_full_run hrun, hlen]

end Sys2Proof.Machine
end

section
/-! PROOFS. The Serializer's stages (10_state.md section 3, 41_serializer.md): resetting, loading, the one way each stage can
move, and the walk along a whole frame (R84). -/

namespace Sys2Proof.Machine

/-! ### SER.LOAD -/

theorem exec_serLoad_of_done (P : Packet) {s : State} (h : s.ser.stage = .done) :
    exec (.serLoad P) s = .next { s with
      ser := { stage := .dest, cks := 0#8, cursor := 0#8, pkt := P }
      results := s.results ++ [.unit] } :=
  if_pos h

/-! ### The moves of the stage -/

/-- SER.NEXT leaves the stage or moves it forward as R16 lists. -/
theorem serNext_stage {r r' : Ser} {b : Option Byte} (h : serNext r = some (r', b)) :
    r'.stage = r.stage ∨
    (r.stage = .dest ∧ r'.stage = .sender) ∨
    (r.stage = .sender ∧ r'.stage = .length) ∨
    (r.stage = .length ∧ r'.stage = .data ∧ r.pkt.len ≠ 0) ∨
    (r.stage = .length ∧ r'.stage = .crc ∧ r.pkt.len = 0) ∨
    (r.stage = .data ∧ r'.stage = .crc) ∨
    (r.stage = .crc ∧ r'.stage = .done) := by
  cases hs : r.stage
  case dest =>
    rw [serNext_of_dest hs] at h
    cases h
    simp
  case sender =>
    rw [serNext_of_sender hs] at h
    cases h
    simp
  case length =>
    rw [serNext_of_length hs, serAtLength_eq] at h
    cases h
    by_cases hz : r.pkt.len = 0 <;> simp [hz]
  case data =>
    rw [serNext_of_data hs] at h
    cases hb : r.pkt.payload.bytes[r.cursor.toNat]? with
    | none =>
      rw [serAtData, serpayAtCursor, storeRead, hb] at h
      cases h
    | some b =>
      rw [serAtData_eq_of_get hb] at h
      cases h
      by_cases hl : r.cursor.toNat + 1 = r.pkt.len <;> simp [hl]
  case crc =>
    rw [serNext_of_crc hs] at h
    cases h
    simp
  case done =>
    rw [serNext_done hs] at h
    cases h
    exact .inl hs

/-! ### The walk along a frame -/

/-- In stage DONE every SER.NEXT returns `None` (R83). -/
theorem runOps_serNext_of_done (k : Nat) {s : State} (h : s.ser.stage = .done) :
    runOps (List.replicate k .serNext) s = .next { s with
      results := s.results ++ List.replicate k (.byte none) } := by
  induction k generalizing s with
  | zero => simp [runOps]
  | succ k ih =>
    rw [List.replicate_succ, runOps, exec_serNext_of_done h]
    simp only
    rw [ih (s := s.respond (.byte none)) h]
    simp [State.respond, List.replicate_succ]

/-- From byte `k` of the frame, `n` calls return the next `n` bytes of it and then `None` (R84). -/
theorem runOps_serNext_at {P : Packet} {k n : Nat} {s : State} (h : s.ser.At P k) (hk : k ≤ 4 + P.len) :
    ∃ r : Ser, runOps (List.replicate n .serNext) s = .next { s with
      ser := r
      outStream := s.outStream ++ ((frame P).drop k).take n
      results := s.results ++ (((frame P).drop k).take n).map (fun b => .byte (some b)) ++
        List.replicate (n - (4 + P.len - k)) (.byte none) } := by
  induction n generalizing k s with
  | zero => exact ⟨s.ser, by simp [runOps]⟩
  | succ n ih =>
    by_cases hlt : k < 4 + P.len
    · obtain ⟨r, b, hb, hnext, hat⟩ := serNext_at h hlt
      obtain ⟨r', hrest⟩ := ih (s := ((s.setSer r).emit [b]).respond (.byte (some b))) hat hlt
      obtain ⟨hlen, rfl⟩ := List.getElem?_eq_some_iff.1 hb
      have hcount : n + 1 - (4 + P.len - k) = n - (4 + P.len - (k + 1)) := by omega
      refine ⟨r', ?_⟩
      rw [List.replicate_succ, runOps, exec_serNext_of_emits hnext, List.drop_eq_getElem_cons hlen,
        List.take_succ_cons, hcount]
      refine hrest.trans ?_
      simp [State.respond, State.emit, State.setSer]
    · obtain rfl : k = 4 + P.len := by omega
      refine ⟨s.ser, ?_⟩
      rw [runOps_serNext_of_done _ (stage_done_of_at_end h), List.drop_eq_nil_of_le (length_frame P).le]
      simp

/-! ### The obligations -/

/-- Settles O19: SER.LOAD stands at byte 0 of the frame. -/
theorem serializerEmitsFrameThenNone : Obligations.SerializerEmitsFrameThenNone := by
  intro P s k hdone
  obtain ⟨r, hrun⟩ := runOps_serNext_at (n := k)
    (s := (s.setSer { stage := .dest, cks := 0#8, cursor := 0#8, pkt := P }).respond .unit) (at_zero_of_load P)
    (Nat.zero_le _)
  refine ⟨r, ?_⟩
  rw [runOps, exec_serLoad_of_done P hdone]
  exact hrun

/-- Settles O18: of all the changes an operation can make, only SER.RESET, SER.LOAD and SER.NEXT write the stage. -/
theorem serStageNeverMovesBack : Obligations.SerStageNeverMovesBack := by
  intro i s t h hne
  obtain ⟨-, r, -, -, rfl⟩ | ⟨hi, P, rfl⟩ | ⟨P, hi, hdone, rfl⟩ | ⟨-, r, b, hnext, rfl⟩ | ⟨-, rfl⟩ |
    ⟨-, b, d, r, -, rfl⟩ | ⟨bytes, d, n, o, -, -, rfl⟩ := exec_cases h
  case inr.inl => exact .inl ⟨hi, rfl⟩
  case inr.inr.inl => simp [hdone, hi]
  case inr.inr.inr.inl =>
    obtain hsame | hsend | hlen | hdata | hempty | hcrc | hend := serNext_stage hnext
    case inl => exact absurd hsame hne
    all_goals simp_all
  all_goals exact absurd rfl hne

/-- Settles O16: the list of moves has one from DONE. -/
theorem serNextInDoneReturnsNone : Obligations.SerNextInDoneReturnsNone := by
  refine fun s hdone => ⟨exec_serNext_of_done hdone, fun i t h hne => ?_⟩
  have hmove := serStageNeverMovesBack i s t h (by rwa [hdone])
  simp only [hdone, hne, reduceCtorEq, true_and, and_false, false_and, false_or] at hmove
  exact hmove.2

/-- Settles O8: the Packet held is the free one. -/
theorem serResetExhausts : Obligations.SerResetExhausts := fun s => ⟨freePacket s.draws, rfl⟩

/-- Settles O9: in stage DONE the request is not refused. -/
theorem serLoadStartsFrame : Obligations.SerLoadStartsFrame := fun P _ hdone => exec_serLoad_of_done P hdone

/-- Settles O10: the stage is the one thing SER.LOAD tests. -/
theorem serLoadRefusedUnlessDone : Obligations.SerLoadRefusedUnlessDone := fun _ _ hbusy => if_neg hbusy

end Sys2Proof.Machine
end

section
/-! PROOFS. What is left of the Packet operations and of DES.STEP: PKT.CONSTRUCT with its operands tested in order (R65),
DES.RESET (R101), the verdict of stage CHECKSUM (R107, R108) and the moves of `des.stage` (10_state.md section 3). -/

namespace Sys2Proof.Machine

/-- DES.STEP moves the stage as R17 lists, from registers of any values. -/
theorem desStep_stage {b : Byte} {d d' : Des} {r : StepResult} (h : desStep b d = some (d', r)) :
    (d.stage = .seek ∧ d'.stage = (if b &&& 0xC0#8 = 0x80#8 then .sender else .seek)) ∨
    (d.stage = .sender ∧ d'.stage = .length) ∨
    (d.stage = .length ∧ d'.stage = (if b = 0#8 then .checksum else .data)) ∨
    (d.stage = .data ∧ d'.stage = (if d.cursor + 1#8 = d.len then .checksum else .data)) ∨
    (d.stage = .checksum ∧ d'.stage = .seek) := by
  cases hs : d.stage
  case seek =>
    rw [desStep_seek hs] at h
    cases h
    split <;> simp [hs]
  case sender =>
    rw [desStep_sender hs] at h
    cases h
    simp [desSender]
  case length =>
    rw [desStep_length hs] at h
    cases h
    simp
  case data =>
    rw [desStep_data hs] at h
    obtain ⟨d₁, hdata, hd₁⟩ := Option.map_eq_some_iff.1 h
    cases hd₁
    unfold desData at hdata
    split at hdata
    · cases hdata
      simp [isLastAt]
    · cases hdata
  case checksum =>
    rw [desStep_checksum hs] at h
    unfold desChecksum at h
    split at h
    · cases h
      simp [Des.reset]
    · cases h

/-! ### The obligations -/

/-- Settles O28: the stage after DES.STEP is the one its step on the registers gives. -/
theorem desStageMovesAsListed : Obligations.DesStageMovesAsListed := by
  intro s t b h
  obtain ⟨d, r, hstep, rfl⟩ := exec_desStep_next.1 h
  exact desStep_stage hstep

/-- Settles O25: the buffer is the payload, and PKT.CONSTRUCT cannot refuse two 6-bit addresses. -/
theorem desChecksumDecidesAndCompletes : Obligations.DesChecksumDecidesAndCompletes := fun _ _ p hstage hp hbuf =>
  exec_desStep_of_step (desStep_checksum_of_wf p hstage hp (beq_iff_eq.2 hbuf))

/-- Settles O20: DES.RESET tests nothing and writes the cleared registers. -/
theorem desResetClears : Obligations.DesResetClears := fun _ => rfl

/-- Settles O1: the range test is the comparison with 63. -/
theorem pktConstructReportsFirstBadAddress : Obligations.PktConstructReportsFirstBadAddress := by
  intro dest src payload s
  rw [exec_pktConstruct]
  simp only [construct, addrOutOfRange_iff]
  rfl

end Sys2Proof.Machine
end
